-- ==== Sys2Proof/Word.lean ====
section
/-!
DEFINITION. The two widths of the block: 8-bit bytes and registers, 16-bit addresses (00_scope.md R4 `XLEN`, `ALEN`).
Every value is unsigned (R6); the only arithmetic is wrapping addition, and sums that must not wrap are taken in `Nat` (R8).
-/

namespace Sys2Proof

/-- A `u8`: a byte of memory, A, X, Y or the status byte (`XLEN` = 8). -/
abbrev Byte := BitVec 8

/-- A `u16`: an address, the program counter, or a word (`ALEN` = 16). -/
abbrev Addr := BitVec 16

end Sys2Proof
end

