-- ==== Sys2Proof/Syntax.lean ====
section
/-!
DEFINITION. The syntax of the block: addressing-mode tags (30_encoding.md R62), mnemonics (R56), catalog rows (R50, R54), the
three formats (R51), operands with their mode (R53), and the 23 instructions of opcode_table.json.
-/

namespace Sys2Proof

/-- The closed set of twelve addressing-mode tags (30_encoding.md R62), in the order of the source's list. -/
inductive Mode
  | immediate
  | zeroPage
  | zeroPageX
  | zeroPageY
  | absolute
  | absoluteX
  | absoluteY
  | indirect
  | indirectX
  | indirectY
  | accumulator
  | noneAddressing
  deriving DecidableEq, Repr

/-- The six mnemonics, that is the six dispatch arms (30_encoding.md R54, 41_engine.md R94). -/
inductive Mnemonic
  | brk
  | inx
  | lda
  | ldx
  | sta
  | tax
  deriving DecidableEq, Repr

/-- A descriptor of the catalog (30_encoding.md R50). `mnemonic` is `none` for an opcode that is catalogued but has no dispatch
arm (R58). The informational cycle cost is `Config.cycles` of the code (R63). -/
structure Descriptor where
  code     : Byte
  mnemonic : Option Mnemonic
  mode     : Mode
  length   : Nat
  deriving DecidableEq, Repr

/-- An entry of the parameter `CATALOG_EXTRA` (30_encoding.md R58): an opcode byte that has a length and a mode but no arm. -/
structure ExtraEntry where
  code   : Byte
  mode   : Mode
  length : Nat
  deriving DecidableEq, Repr

/-- What the decode unit puts on its outputs on a hit (30_encoding.md R56, 10_state.md R29), as the numeric codes of R56. -/
structure DecodeOutput where
  mnemonic : Nat
  length   : Nat
  cycles   : Nat
  mode     : Nat
  deriving DecidableEq, Repr

/-- An addressing mode together with the operand the resolver has assembled for it (30_encoding.md R53): `d8` for the formats
with one operand byte, `a16` for those with two. -/
inductive OperandForm
  | immediate (d8 : Byte)
  | zeroPage  (d8 : Byte)
  | zeroPageX (d8 : Byte)
  | zeroPageY (d8 : Byte)
  | absolute  (a16 : Addr)
  | absoluteX (a16 : Addr)
  | absoluteY (a16 : Addr)
  | indirect  (a16 : Addr)
  | indirectX (d8 : Byte)
  | indirectY (d8 : Byte)
  | accumulator
  | noneAddressing
  deriving DecidableEq, Repr

/-- The instructions: one constructor per row of opcode_table.json, in the table's order, with the row's operand. -/
inductive Instr
  | brk
  | inx
  | ldaImmediate (d8 : Byte)
  | ldaZeroPage  (d8 : Byte)
  | ldaZeroPageX (d8 : Byte)
  | ldaAbsolute  (a16 : Addr)
  | ldaAbsoluteX (a16 : Addr)
  | ldaAbsoluteY (a16 : Addr)
  | ldaIndirectX (d8 : Byte)
  | ldaIndirectY (d8 : Byte)
  | ldxImmediate (d8 : Byte)
  | ldxZeroPage  (d8 : Byte)
  | ldxZeroPageX (d8 : Byte)
  | ldxAbsolute  (a16 : Addr)
  | ldxAbsoluteY (a16 : Addr)
  | staZeroPage  (d8 : Byte)
  | staZeroPageX (d8 : Byte)
  | staAbsolute  (a16 : Addr)
  | staAbsoluteX (a16 : Addr)
  | staAbsoluteY (a16 : Addr)
  | staIndirectX (d8 : Byte)
  | staIndirectY (d8 : Byte)
  | tax
  deriving DecidableEq, Repr

/-- The three formats of 30_encoding.md R51, each with what it still needs to become an instruction: nothing, the byte `d8`, or
the word `a16`. (Used while decoding; no part of State.) -/
inductive Format
  | f1 (i : Instr)
  | f2 (build : Byte → Instr)
  | f3 (build : Addr → Instr)

/-- Why bytes do not decode. -/
inductive DecodeError
  /-- There is no opcode byte, or fewer operand bytes than the opcode's length asks for. -/
  | truncated
  /-- The opcode byte is not a key of the catalog (30_encoding.md R57). -/
  | unrecognizedOpcode (opcode : Byte)
  /-- The opcode byte is catalogued without a dispatch arm (30_encoding.md R58). -/
  | notImplemented (opcode : Byte)
  deriving DecidableEq, Repr

end Sys2Proof
end

