-- ==== Sys2Proof/Config.lean ====
section
/-!
DEFINITION. The sizes, constants and open parameters of the block (00_scope.md R4), and the free values it leaves open.
-/

namespace Sys2Proof.Config

/-- `MEM_SIZE`: the addresses are 0 to `memSize - 1` (R4). -/
def memSize : Nat := 0x10000

/-- `ORIGIN`: where `load` puts the program (R4). -/
def origin : Addr := 0x8000#16

/-- `RESET_VECTOR`: the low byte's address; the high byte is at the next one (R4). -/
def resetVector : Addr := 0xFFFC#16

/-- `MAX_PROGRAM` = `MEM_SIZE` - `ORIGIN` (R4). -/
def maxProgram : Nat := 32768

/-- What a byte of memory that nothing has written reads as (70_reset_and_hazards.md R182: "cleared implicitly to zero at
construction"). -/
def memoryFill : Byte := 0x00#8

/-- `CATALOG_EXTRA`, an open parameter with the spec's default: the empty set (R4, 30_encoding.md R58).
DESIGN CHOICE, log 5: the machine takes the default; decoding, fetching, stepping, `execute` and `run` also exist for every other legal
value (`CatalogExtra` of Decode.lean). -/
def catalogExtra : List ExtraEntry := []

/-- A step budget that no run exhausts (41_engine.md R100: "a fuel of 65536 is never exhausted"). -/
def fuel : Nat := 65536

/-- `CYCLES[op]`: the informational cycle cost, open and read by no rule (30_encoding.md R63). A free value, log 15. -/
opaque cycles : Byte → Nat

/-- A, X, Y, P and PC at construction: "unspecified (any value)" (70_reset_and_hazards.md R182). Free values, log 10. -/
opaque powerOnA : Byte
@[inherit_doc powerOnA] opaque powerOnX : Byte
@[inherit_doc powerOnA] opaque powerOnY : Byte
@[inherit_doc powerOnA] opaque powerOnP : Byte
@[inherit_doc powerOnA] opaque powerOnPc : Addr

end Sys2Proof.Config
end

