-- ==== Sys2Proof/Machine/Format.lean ====
section
/-!
DEFINITION. Byte order, zero extension, and the numbers the encoding attaches to modes and mnemonics (20_memory.md R35,
00_scope.md R7, 30_encoding.md R51, R52, R56).
-/

namespace Sys2Proof

/-- `zext_16(v)` = `{0x00, v}` (00_scope.md R7). -/
def zext16 (v : Byte) : Addr := v.setWidth 16

/-- `sext_16(v)`, which the notation defines and no rule of the block uses (00_scope.md R7). -/
def sext16 (v : Byte) : Addr := v.signExtend 16

/-- `{hi, lo}` (00_scope.md R6). -/
def wordOf (hi lo : Byte) : Addr := hi ++ lo

/-- `v[7:0]`, the byte at the lower address (20_memory.md R35). -/
def loByte (w : Addr) : Byte := w.extractLsb' 0 8

/-- `v[15:8]`, the byte at the higher address (20_memory.md R35). -/
def hiByte (w : Addr) : Byte := w.extractLsb' 8 8

/-- The instruction length that a mode's operand gives (30_encoding.md R51, R52). -/
def Mode.length : Mode → Nat
  | .accumulator | .noneAddressing => 1
  | .immediate | .zeroPage | .zeroPageX | .zeroPageY | .indirectX | .indirectY => 2
  | .absolute | .absoluteX | .absoluteY | .indirect => 3

/-- `mode[3:0]` (30_encoding.md R56): the tag code, which InvalidAddressingMode also reports. -/
def Mode.tag : Mode → Nat
  | .immediate => 0
  | .zeroPage => 1
  | .zeroPageX => 2
  | .zeroPageY => 3
  | .absolute => 4
  | .absoluteX => 5
  | .absoluteY => 6
  | .indirect => 7
  | .indirectX => 8
  | .indirectY => 9
  | .accumulator => 10
  | .noneAddressing => 11

/-- `mnemonic[2:0]` (30_encoding.md R56); 7 for an entry of `CATALOG_EXTRA`. -/
def mnemonicCode : Option Mnemonic → Nat
  | some .brk => 0
  | some .inx => 1
  | some .lda => 2
  | some .ldx => 3
  | some .sta => 4
  | some .tax => 5
  | none => 7

/-- The mode an assembled operand belongs to. -/
def OperandForm.mode : OperandForm → Mode
  | .immediate _ => .immediate
  | .zeroPage _ => .zeroPage
  | .zeroPageX _ => .zeroPageX
  | .zeroPageY _ => .zeroPageY
  | .absolute _ => .absolute
  | .absoluteX _ => .absoluteX
  | .absoluteY _ => .absoluteY
  | .indirect _ => .indirect
  | .indirectX _ => .indirectX
  | .indirectY _ => .indirectY
  | .accumulator => .accumulator
  | .noneAddressing => .noneAddressing

end Sys2Proof
end

