-- ==== Sys2Proof/WellFormed.lean ====
section
/-!
DEFINITION. The well-formedness checks the spec asks for. Every term of `Instr` is well-formed: its operands are exactly a `d8` or
an `a16`, and "Operand bytes are never illegal" (30_encoding.md R57). What can be ill-formed is the catalog (R52, R55), the
parameter `CATALOG_EXTRA` (00_scope.md R4, 30_encoding.md R58) and the size of a program (70_reset_and_hazards.md R181).
-/

namespace Sys2Proof

/-- A descriptor's length is the one its mode's operand gives (30_encoding.md R52; log 23). -/
def Descriptor.wf (d : Descriptor) : Bool := d.length == d.mode.length

/-- No two rows have one code (30_encoding.md R55: "unique keys"). -/
def uniqueCodes : List Byte → Bool
  | [] => true
  | c :: rest => !rest.contains c && uniqueCodes rest

/-- A catalog of this block: unique keys (R55), and a length that fits the mode in every row (R52). -/
def catalogWf (rows : List Descriptor) : Bool :=
  uniqueCodes (rows.map Descriptor.code) && rows.all Descriptor.wf

/-- An entry of `CATALOG_EXTRA` as a descriptor: catalogued, with no arm (30_encoding.md R58). -/
def ExtraEntry.descriptor (e : ExtraEntry) : Descriptor := ⟨e.code, none, e.mode, e.length⟩

/-- A legal value of `CATALOG_EXTRA` over some rows: the two together are a catalog, so every key is unique (30_encoding.md R55) and the
entries are disjoint from the rows, every length is its mode's (R52), and 0xFF is not among them (00_scope.md R4). -/
def extraWf (rows : List Descriptor) (entries : List ExtraEntry) : Bool :=
  catalogWf (rows ++ entries.map ExtraEntry.descriptor) && entries.all fun e => e.code != 0xFF#8

/-- A program that `load` accepts (70_reset_and_hazards.md R181). -/
def programWf (program : List Byte) : Bool := decide (program.length ≤ Config.maxProgram)

end Sys2Proof
end

