-- ==== Sys2Proof/Decode.lean ====
section
/-!
DEFINITION. The catalog, the decode unit and the dispatch mux (30_encoding.md R54, R56; 41_engine.md R93, R94), the decoder of a
byte sequence, and the encoder. The bytes of 18 rows are the spec's own choice (R54, decision D8 of the spec; log 6).
-/

namespace Sys2Proof

/-- The 23 descriptors of 30_encoding.md R54, in its order. -/
def catalog : List Descriptor :=
  [ ⟨0x00#8, some .brk, .noneAddressing, 1⟩,
    ⟨0xE8#8, some .inx, .noneAddressing, 1⟩,
    ⟨0xA9#8, some .lda, .immediate, 2⟩,
    ⟨0xA5#8, some .lda, .zeroPage, 2⟩,
    ⟨0xB5#8, some .lda, .zeroPageX, 2⟩,
    ⟨0xAD#8, some .lda, .absolute, 3⟩,
    ⟨0xBD#8, some .lda, .absoluteX, 3⟩,
    ⟨0xB9#8, some .lda, .absoluteY, 3⟩,
    ⟨0xA1#8, some .lda, .indirectX, 2⟩,
    ⟨0xB1#8, some .lda, .indirectY, 2⟩ ] ++
  [ ⟨0xA2#8, some .ldx, .immediate, 2⟩,
    ⟨0xA6#8, some .ldx, .zeroPage, 2⟩,
    ⟨0xB6#8, some .ldx, .zeroPageX, 2⟩,
    ⟨0xAE#8, some .ldx, .absolute, 3⟩,
    ⟨0xBE#8, some .ldx, .absoluteY, 3⟩ ] ++
  [ ⟨0x85#8, some .sta, .zeroPage, 2⟩,
    ⟨0x95#8, some .sta, .zeroPageX, 2⟩,
    ⟨0x8D#8, some .sta, .absolute, 3⟩,
    ⟨0x9D#8, some .sta, .absoluteX, 3⟩,
    ⟨0x99#8, some .sta, .absoluteY, 3⟩,
    ⟨0x81#8, some .sta, .indirectX, 2⟩,
    ⟨0x91#8, some .sta, .indirectY, 2⟩,
    ⟨0xAA#8, some .tax, .noneAddressing, 1⟩ ]

/-- The keys of the catalog. -/
def catalogCodes : List Byte := catalog.map Descriptor.code

/-- A value of the parameter `CATALOG_EXTRA` (00_scope.md R4). It carries the assertion of 30_encoding.md R55, so that a catalog with two
descriptors for one byte is no configuration: nothing below can be applied to one. -/
structure CatalogExtra where
  entries : List ExtraEntry
  wf      : extraWf catalog entries = true
  deriving DecidableEq, Repr

/-- Construction: the assertion of 30_encoding.md R55 is tested here, and `none` refuses the entries ("guard uniqueness of keys with an
assertion at construction time rather than allowing silent overwrite"). -/
def CatalogExtra.ofEntries (entries : List ExtraEntry) : Option CatalogExtra :=
  if wf : extraWf catalog entries = true then some ⟨entries, wf⟩ else none

/-- The machine's own value, the spec's default (log 5). -/
def CatalogExtra.default : CatalogExtra := ⟨Config.catalogExtra, rfl⟩

/-- All descriptors: the 23 rows and the entries of `CATALOG_EXTRA`. -/
def CatalogExtra.rows (extra : CatalogExtra) : List Descriptor := catalog ++ extra.entries.map ExtraEntry.descriptor

/-- The decode unit: `lookup(byte) -> Option<OpcodeDescriptor>` (30_encoding.md R56), for any value of `CATALOG_EXTRA`. -/
def lookup (extra : CatalogExtra) (op : Byte) : Option Descriptor :=
  extra.rows.find? fun d => d.code == op

/-- The decode unit's outputs as numeric codes; `none` is `hit = 0` (30_encoding.md R56, 10_state.md R29). -/
def decodeUnit (extra : CatalogExtra) (op : Byte) : Option DecodeOutput :=
  (lookup extra op).map fun d => ⟨mnemonicCode d.mnemonic, d.length, Config.cycles d.code, d.mode.tag⟩

/-- The dispatch mux's choice among the instructions: the arm by mnemonic, the variant by mode (41_engine.md R94). A pair that is
no row of the catalog has no arm. -/
def instrFormat : Mnemonic → Mode → Option Format
  | .brk, .noneAddressing => some (.f1 .brk)
  | .inx, .noneAddressing => some (.f1 .inx)
  | .tax, .noneAddressing => some (.f1 .tax)
  | .lda, .immediate => some (.f2 .ldaImmediate)
  | .lda, .zeroPage => some (.f2 .ldaZeroPage)
  | .lda, .zeroPageX => some (.f2 .ldaZeroPageX)
  | .lda, .absolute => some (.f3 .ldaAbsolute)
  | .lda, .absoluteX => some (.f3 .ldaAbsoluteX)
  | .lda, .absoluteY => some (.f3 .ldaAbsoluteY)
  | .lda, .indirectX => some (.f2 .ldaIndirectX)
  | .lda, .indirectY => some (.f2 .ldaIndirectY)
  | .ldx, .immediate => some (.f2 .ldxImmediate)
  | .ldx, .zeroPage => some (.f2 .ldxZeroPage)
  | .ldx, .zeroPageX => some (.f2 .ldxZeroPageX)
  | .ldx, .absolute => some (.f3 .ldxAbsolute)
  | .ldx, .absoluteY => some (.f3 .ldxAbsoluteY)
  | .sta, .zeroPage => some (.f2 .staZeroPage)
  | .sta, .zeroPageX => some (.f2 .staZeroPageX)
  | .sta, .absolute => some (.f3 .staAbsolute)
  | .sta, .absoluteX => some (.f3 .staAbsoluteX)
  | .sta, .absoluteY => some (.f3 .staAbsoluteY)
  | .sta, .indirectX => some (.f2 .staIndirectX)
  | .sta, .indirectY => some (.f2 .staIndirectY)
  | _, _ => none

/-- The dispatch mux on a descriptor: `none` when the opcode is catalogued but has no arm (10_state.md R29, 41_engine.md R94). -/
def dispatchFormat (d : Descriptor) : Option Format :=
  match d.mnemonic with
  | none => none
  | some m => instrFormat m d.mode

/-- Decode the instruction at the head of a byte sequence: the instruction and the bytes after it, or why there is none.
Total on any bytes; the operand's low byte comes first (30_encoding.md R51, 20_memory.md R35). -/
def decodeWith (extra : CatalogExtra) : List Byte → Except DecodeError (Instr × List Byte)
  | [] => .error .truncated
  | op :: rest =>
    match lookup extra op with
    | none => .error (.unrecognizedOpcode op)
    | some d =>
      match dispatchFormat d, rest with
      | none, _ => .error (.notImplemented op)
      | some (.f1 i), rest => .ok (i, rest)
      | some (.f2 build), d8 :: rest => .ok (build d8, rest)
      | some (.f3 build), lo :: hi :: rest => .ok (build (wordOf hi lo), rest)
      | some _, _ => .error .truncated

/-- The decoder with the machine's own value of `CATALOG_EXTRA`. -/
def decode (bytes : List Byte) : Except DecodeError (Instr × List Byte) := decodeWith CatalogExtra.default bytes

/-- The bytes of an instruction, opcode first, from the encodings of opcode_table.json (30_encoding.md R51, R54). -/
def encode : Instr → List Byte
  | .brk => [0x00#8]
  | .inx => [0xE8#8]
  | .ldaImmediate d8 => [0xA9#8, d8]
  | .ldaZeroPage d8 => [0xA5#8, d8]
  | .ldaZeroPageX d8 => [0xB5#8, d8]
  | .ldaAbsolute a16 => [0xAD#8, loByte a16, hiByte a16]
  | .ldaAbsoluteX a16 => [0xBD#8, loByte a16, hiByte a16]
  | .ldaAbsoluteY a16 => [0xB9#8, loByte a16, hiByte a16]
  | .ldaIndirectX d8 => [0xA1#8, d8]
  | .ldaIndirectY d8 => [0xB1#8, d8]
  | .ldxImmediate d8 => [0xA2#8, d8]
  | .ldxZeroPage d8 => [0xA6#8, d8]
  | .ldxZeroPageX d8 => [0xB6#8, d8]
  | .ldxAbsolute a16 => [0xAE#8, loByte a16, hiByte a16]
  | .ldxAbsoluteY a16 => [0xBE#8, loByte a16, hiByte a16]
  | .staZeroPage d8 => [0x85#8, d8]
  | .staZeroPageX d8 => [0x95#8, d8]
  | .staAbsolute a16 => [0x8D#8, loByte a16, hiByte a16]
  | .staAbsoluteX a16 => [0x9D#8, loByte a16, hiByte a16]
  | .staAbsoluteY a16 => [0x99#8, loByte a16, hiByte a16]
  | .staIndirectX d8 => [0x81#8, d8]
  | .staIndirectY d8 => [0x91#8, d8]
  | .tax => [0xAA#8]

/-- The mnemonic of an instruction (opcode_table.json). -/
def Instr.mnemonic : Instr → Mnemonic
  | .brk => .brk
  | .inx => .inx
  | .tax => .tax
  | .ldaImmediate _ | .ldaZeroPage _ | .ldaZeroPageX _ | .ldaAbsolute _ | .ldaAbsoluteX _ | .ldaAbsoluteY _
  | .ldaIndirectX _ | .ldaIndirectY _ => .lda
  | .ldxImmediate _ | .ldxZeroPage _ | .ldxZeroPageX _ | .ldxAbsolute _ | .ldxAbsoluteY _ => .ldx
  | .staZeroPage _ | .staZeroPageX _ | .staAbsolute _ | .staAbsoluteX _ | .staAbsoluteY _
  | .staIndirectX _ | .staIndirectY _ => .sta

/-- The operand of an instruction with its mode (opcode_table.json). -/
def Instr.form : Instr → OperandForm
  | .brk | .inx | .tax => .noneAddressing
  | .ldaImmediate d8 | .ldxImmediate d8 => .immediate d8
  | .ldaZeroPage d8 | .ldxZeroPage d8 | .staZeroPage d8 => .zeroPage d8
  | .ldaZeroPageX d8 | .ldxZeroPageX d8 | .staZeroPageX d8 => .zeroPageX d8
  | .ldaAbsolute a16 | .ldxAbsolute a16 | .staAbsolute a16 => .absolute a16
  | .ldaAbsoluteX a16 | .staAbsoluteX a16 => .absoluteX a16
  | .ldaAbsoluteY a16 | .ldxAbsoluteY a16 | .staAbsoluteY a16 => .absoluteY a16
  | .ldaIndirectX d8 | .staIndirectX d8 => .indirectX d8
  | .ldaIndirectY d8 | .staIndirectY d8 => .indirectY d8

/-- The length of an instruction in bytes (30_encoding.md R52). -/
def Instr.length (i : Instr) : Nat := i.form.mode.length

/-- The first three bytes of an instruction whose first `nbits` bits are `w`, every later bit 0; byte k is bits 8k+7 .. 8k of `w`
(30_encoding.md R51: instruction bytes at ascending addresses; three is the longest length). -/
def tableBytes (nbits w : Nat) : List Byte :=
  let v := w % 2 ^ nbits
  [BitVec.ofNat 8 v, BitVec.ofNat 8 (v / 0x100), BitVec.ofNat 8 (v / 0x10000)]

/-- The instruction the decoder reads from a word numbered as opcode_table.json numbers it. -/
def decodeTableWord (nbits w : Nat) : Option Instr :=
  match decode (tableBytes nbits w) with
  | .ok (i, _) => some i
  | .error _ => none

end Sys2Proof
end

