-- ==== Sys2Proof/Machine/State.lean ====
section
/-!
DEFINITION. The state of the block: the eight items of 10_state.md R10 and nothing else; the state after reset and the state at
construction; and the named reasons for which a step or a command stops.
-/

namespace Sys2Proof.Machine

/-- The lifecycle phase (10_state.md R20). -/
inductive Phase
  | notLoaded
  | loaded
  | reset
  | running
  | halted
  deriving DecidableEq, Repr

/-- What the fault latch holds after a `raise`: the four fatal errors with their information (60_exceptions.md R150, R155). -/
inductive RaisedError
  /-- Code 1: an address beyond 0xFFFF, or the length of a program that does not fit (R151). -/
  | outOfRange (value : Nat)
  /-- Code 2: a byte absent from the catalog and where it was fetched (R152). -/
  | unrecognizedOpcode (opcode : Byte) (addr : Addr)
  /-- Code 3: a catalogued byte without an arm and where it was fetched (R153). -/
  | notImplemented (opcode : Byte) (addr : Addr)
  /-- Code 4: a mode that has no memory address was resolved (R154). -/
  | invalidAddressingMode (mode : Mode)
  deriving DecidableEq, Repr

/-- The memory array (10_state.md R22) in canonical form: addresses strictly rising and below 0x10000, and no entry equal to what an
unlisted address reads as. `Memory.wf` of Machine/Ops.lean says so. -/
abbrev Memory := List Host.Cell

/-- The complete state of the block (10_state.md R10). -/
structure State where
  /-- The accumulator (R11). -/
  a     : Byte
  /-- Index register X (R12). -/
  x     : Byte
  /-- Index register Y (R13). -/
  y     : Byte
  /-- The status byte: N is bit 7, Z is bit 1, the other six bits are stored and reserved (R15 to R18). -/
  p     : Byte
  /-- The program counter (R14). -/
  pc    : Addr
  /-- The memory array (R22). -/
  mem   : Memory
  /-- The lifecycle phase (R20). -/
  phase : Phase
  /-- The fault latch; `none` is the source's error kind `None` (R21, 60_exceptions.md R155). -/
  err   : Option RaisedError
  deriving DecidableEq, Repr

/-- The state right after `reset` on a freshly constructed engine (70_reset_and_hazards.md R180, R182, R183; vector V-RST-8): the
registers zero, PC the word at 0xFFFC of the zero memory, the phase still NotLoaded, no error. Log 1. -/
def State.reset : State where
  a := 0x00#8
  x := 0x00#8
  y := 0x00#8
  p := 0x00#8
  pc := 0x0000#16
  mem := []
  phase := .notLoaded
  err := none

/-- The state at construction (70_reset_and_hazards.md R182): memory zero, phase NotLoaded, no error, and free values in the
registers and the PC. Log 10. -/
def State.constructed : State where
  a := Config.powerOnA
  x := Config.powerOnX
  y := Config.powerOnY
  p := Config.powerOnP
  pc := Config.powerOnPc
  mem := []
  phase := .notLoaded
  err := none

/-- Why the machine is stuck. -/
inductive Fault
  /-- Raised by `step` alone, in every phase but Running: no step is enabled there (41_engine.md R90, R99). Safe: the machine stops
  where the block makes no step. The block's own four errors are no `Fault`: they are latched in `State.err` by a next state
  (60_exceptions.md R158). Log 3, log 4. -/
  | notEnabled (phase : Phase)
  deriving DecidableEq, Repr

/-- The host's commands and accesses (10_state.md R25, R28), to name the one that was refused. -/
inductive CommandName
  | load
  | reset
  | execute
  | run
  | poke
  | writeRegister
  deriving DecidableEq, Repr

/-- Why something has no meaning. -/
inductive Refusal
  /-- Raised by an arm of `exec` whose instruction has no meaning yet. No arm of this model raises it. Safe. -/
  | notModelled (mnemonic : String)
  /-- Raised by a host command issued in a phase that does not allow it: it does nothing (60_exceptions.md R169,
  70_reset_and_hazards.md R183). Never raised by `step` or `exec`. Safe. Log 12. -/
  | command (name : CommandName) (phase : Phase)
  deriving DecidableEq, Repr

/-- The outcome of a meaning, a step or a host command. -/
abbrev Result := Host.Outcome State Fault Refusal

end Sys2Proof.Machine
end

