-- ==== Sys2Proof/Machine/Ops.lean ====
section
/-!
DEFINITION. The shared operations: memory access (20_memory.md R31 to R34), register writes, raising a fault (60_exceptions.md R158),
halting, and the two advances of the program counter (41_engine.md R92, R95, R96).
-/

namespace Sys2Proof.Machine

/-- The byte at an address given as a number: the listed one, else what an unlisted address reads as. -/
def Memory.readAt : Memory → Nat → Byte
  | [], _ => Config.memoryFill
  | (b, w) :: rest, n => if n = b then w else Memory.readAt rest n

/-- Write one byte and keep the canonical form: the fill value is never listed. -/
def Memory.writeAt : Memory → Nat → Byte → Memory
  | [], n, v => if v = Config.memoryFill then [] else [(n, v)]
  | (b, w) :: rest, n, v =>
    if n < b then
      if v = Config.memoryFill then (b, w) :: rest else (n, v) :: (b, w) :: rest
    else if n = b then
      if v = Config.memoryFill then rest else (n, v) :: rest
    else (b, w) :: Memory.writeAt rest n v

/-- Every listed address is at least `low` and below 0x10000, they rise strictly, and no entry is the fill value. -/
def Memory.wfFrom : Nat → Memory → Bool
  | _, [] => true
  | low, (b, w) :: rest =>
    decide (low ≤ b) && decide (b < Config.memSize) && decide (w ≠ Config.memoryFill) && Memory.wfFrom (b + 1) rest

/-- The canonical form of the memory array. -/
def Memory.wf (m : Memory) : Bool := Memory.wfFrom 0 m

/-- `MemRead(a, 1)` (20_memory.md R31): cannot fail. -/
def Memory.read (m : Memory) (a : Addr) : Byte := Memory.readAt m a.toNat

/-- `MemWrite(a, 1, v)` (20_memory.md R32): cannot fail. -/
def Memory.write (m : Memory) (a : Addr) (v : Byte) : Memory := Memory.writeAt m a.toNat v

/-- `MemRead(a, 2)` (20_memory.md R33): little-endian, and OutOfRange where `a + 1` leaves the address space. -/
def Memory.readWord (m : Memory) (a : Addr) : Except RaisedError Addr :=
  if a = 0xFFFF#16 then .error (.outOfRange 0x10000)
  else .ok (wordOf (Memory.read m (a + 1#16)) (Memory.read m a))

/-- `MemWrite(a, 2, v)` (20_memory.md R34): the range test comes before both byte writes. -/
def Memory.writeWord (m : Memory) (a : Addr) (v : Addr) : Except RaisedError Memory :=
  if a = 0xFFFF#16 then .error (.outOfRange 0x10000)
  else .ok (Memory.write (Memory.write m a (loByte v)) (a + 1#16) (hiByte v))

/-- Bytes written at ascending addresses from `n` upward (the copy of `load`, 70_reset_and_hazards.md R181). -/
def Memory.writeBytes : Memory → Nat → List Byte → Memory
  | m, _, [] => m
  | m, n, b :: rest => Memory.writeBytes (Memory.writeAt m n b) (n + 1) rest

/-- `A <- v` (10_state.md R11). -/
def State.setA (v : Byte) (s : State) : State := { s with a := v }

/-- `X <- v` (10_state.md R12). -/
def State.setX (v : Byte) (s : State) : State := { s with x := v }

/-- `Y <- v` (10_state.md R13). -/
def State.setY (v : Byte) (s : State) : State := { s with y := v }

/-- `P <- v` (10_state.md R15). -/
def State.setP (v : Byte) (s : State) : State := { s with p := v }

/-- `PC <- v` (10_state.md R14). -/
def State.setPc (v : Addr) (s : State) : State := { s with pc := v }

/-- `M[a] <- v` (20_memory.md R32). -/
def State.store (ea : Addr) (v : Byte) (s : State) : State := { s with mem := Memory.write s.mem ea v }

/-- `raise E(info)` (60_exceptions.md R158): latch the error and enter Halted. It saves nothing, changes no register and no PC, reads
no vector and undoes nothing already written. There is no return from it (R160): the host's `load` and `reset` leave Halted. -/
def raise (e : RaisedError) (s : State) : State := { s with err := some e, phase := .halted }

/-- `halt` (42_brk.md R110): enter Halted; the latch stays as it is. -/
def halt (s : State) : State := { s with phase := .halted }

/-- One advance of the PC by `n` (41_engine.md R92, R95): never wrapped; past 0xFFFF it raises with the 17-bit result (R96). -/
def advance (n : Nat) (s : State) : Except RaisedError State :=
  if s.pc.toNat + n ≤ 0xFFFF then .ok (s.setPc (s.pc + BitVec.ofNat 16 n))
  else .error (.outOfRange (s.pc.toNat + n))

/-- The end of a step after its operation: the second advance, by the length less the opcode byte (41_engine.md R95). A fault of it
keeps what the operation wrote (R101). -/
def secondAdvance (length : Nat) (s : State) : Result :=
  match advance (length - 1) s with
  | .ok s' => .next s'
  | .error e => .next (raise e s)

/-- The numeric code of the latch's kind (60_exceptions.md R155). -/
def errorCode : Option RaisedError → Nat
  | none => 0
  | some (.outOfRange _) => 1
  | some (.unrecognizedOpcode _ _) => 2
  | some (.notImplemented _ _) => 3
  | some (.invalidAddressingMode _) => 4

end Sys2Proof.Machine
end

