-- ==== Sys2Proof/Machine/Brk.lean ====
section
/-!
DEFINITION. BRK (42_brk.md).
-/

namespace Sys2Proof.Machine

/-- BRK, 0x00 (42_brk.md R110): the run ends with no error, and the second advance is not made. -/
def execBrk (s : State) : Result := .next (halt s)

end Sys2Proof.Machine
end

