-- ==== Sys2Proof/Machine/Flags.lean ====
section
/-!
DEFINITION. The status_flag_updater (10_state.md R15 to R19).
-/

namespace Sys2Proof.Machine

/-- `SetZN(P, r)` (10_state.md R19): N is bit 7 of the result, Z says it is zero, the six reserved bits stay. -/
def setZN (p r : Byte) : Byte :=
  let z : Byte := if r = 0x00#8 then 1#8 else 0#8
  let n : Byte := if r.getLsbD 7 then 1#8 else 0#8
  (p &&& 0x7D#8) ||| (n <<< 7) ||| (z <<< 1)

/-- The zero flag, `P[1]` (10_state.md R16). -/
def State.flagZ (s : State) : Bool := s.p.getLsbD 1

/-- The negative flag, `P[7]` (10_state.md R17). -/
def State.flagN (s : State) : Bool := s.p.getLsbD 7

/-- `P <- SetZN(P, r)` (10_state.md R29: result and update strobe). -/
def State.updateFlags (r : Byte) (s : State) : State := s.setP (setZN s.p r)

end Sys2Proof.Machine
end

