-- ==== Sys2Proof/Machine/Operands.lean ====
section
/-!
DEFINITION. The 6502_addressing_resolver (40_addressing.md), over all twelve tags. It is given the mode, PC, X, Y and the memory and
nothing else (R70), so it can read neither A nor P and write nothing. `PC` is the address of the instruction's byte 1.
-/

namespace Sys2Proof.Machine

/-- Assemble the operand of a mode at `PC` (30_encoding.md R53): a byte, or a little-endian word whose read may raise. -/
def assemble (mode : Mode) (pc : Addr) (mem : Memory) : Except RaisedError OperandForm :=
  match mode with
  | .immediate => .ok (.immediate (Memory.read mem pc))
  | .zeroPage => .ok (.zeroPage (Memory.read mem pc))
  | .zeroPageX => .ok (.zeroPageX (Memory.read mem pc))
  | .zeroPageY => .ok (.zeroPageY (Memory.read mem pc))
  | .absolute => (Memory.readWord mem pc).map .absolute
  | .absoluteX => (Memory.readWord mem pc).map .absoluteX
  | .absoluteY => (Memory.readWord mem pc).map .absoluteY
  | .indirect => (Memory.readWord mem pc).map .indirect
  | .indirectX => .ok (.indirectX (Memory.read mem pc))
  | .indirectY => .ok (.indirectY (Memory.read mem pc))
  | .accumulator => .ok .accumulator
  | .noneAddressing => .ok .noneAddressing

/-- The effective address of an assembled operand (40_addressing.md R71 to R82): zero-page sums wrap at 8 bits, absolute sums at 16,
IndirectY is indexed before the pointer is read (R80), pointer words do not wrap in the page (R79), and the last two tags raise (R81). -/
def addressOf (form : OperandForm) (pc : Addr) (x y : Byte) (mem : Memory) : Except RaisedError Addr :=
  match form with
  | .immediate _ => .ok pc
  | .zeroPage d8 => .ok (zext16 d8)
  | .zeroPageX d8 => .ok (zext16 (d8 + x))
  | .zeroPageY d8 => .ok (zext16 (d8 + y))
  | .absolute a16 => .ok a16
  | .absoluteX a16 => .ok (a16 + zext16 x)
  | .absoluteY a16 => .ok (a16 + zext16 y)
  | .indirect a16 => Memory.readWord mem a16
  | .indirectX d8 => Memory.readWord mem (zext16 (d8 + x))
  | .indirectY d8 => Memory.readWord mem (zext16 (d8 + y))
  | .accumulator => .error (.invalidAddressingMode .accumulator)
  | .noneAddressing => .error (.invalidAddressingMode .noneAddressing)

/-- `EA(mode)`, the resolver's contract `effective_address(mode, program_counter, registers, memory) -> u16`
(40_addressing.md R70): assemble the operand, then resolve it. -/
def effectiveAddress (mode : Mode) (pc : Addr) (x y : Byte) (mem : Memory) : Except RaisedError Addr :=
  match assemble mode pc mem with
  | .error e => .error e
  | .ok form => addressOf form pc x y mem

/-- `EA(mode)` in a state. -/
def State.effectiveAddress (mode : Mode) (s : State) : Except RaisedError Addr :=
  Machine.effectiveAddress mode s.pc s.x s.y s.mem

/-- The effective address of an instruction's operand in a state. -/
def State.addressOf (form : OperandForm) (s : State) : Except RaisedError Addr :=
  Machine.addressOf form s.pc s.x s.y s.mem

/-- The byte a load reads through its operand. The byte at `EA(Immediate) = PC` is the operand byte itself (40_addressing.md R71), so
an immediate is that byte (log 13); every other mode reads the byte at its address. -/
def State.operandValue (form : OperandForm) (s : State) : Except RaisedError Byte :=
  match form with
  | .immediate d8 => .ok d8
  | form =>
    match s.addressOf form with
    | .ok ea => .ok (Memory.read s.mem ea)
    | .error e => .error e

end Sys2Proof.Machine
end

