-- ==== Sys2Proof/Machine/Transfer.lean ====
section
/-!
DEFINITION. The two arms that several instructions share: a load into a register (44_lda.md R115, 45_ldx.md R125) and a store of the
accumulator (46_sta.md R132). In both the resolver is finished before anything is written (41_engine.md R101).
-/

namespace Sys2Proof.Machine

/-- Resolve, read the byte, write it to the register that `setReg` names, update the flags from it, advance. A resolver fault comes
before any write; a fault of the advance comes after them. -/
def loadRegister (setReg : Byte → State → State) (form : OperandForm) (s : State) : Result :=
  match s.operandValue form with
  | .error e => .next (raise e s)
  | .ok v => secondAdvance form.mode.length ((setReg v s).updateFlags v)

/-- Resolve, write A at the address, advance; no flag is touched. -/
def storeAccumulator (form : OperandForm) (s : State) : Result :=
  match s.addressOf form with
  | .error e => .next (raise e s)
  | .ok ea => secondAdvance form.mode.length (s.store ea s.a)

/-- X becomes `v`, the flags follow it, the length is 1 (43_inx.md R112, 47_tax.md R141). -/
def writeIndexX (v : Byte) (s : State) : Result := secondAdvance 1 ((s.setX v).updateFlags v)

end Sys2Proof.Machine
end

