-- ==== Sys2Proof/Machine/Inx.lean ====
section
/-!
DEFINITION. INX (43_inx.md).
-/

namespace Sys2Proof.Machine

/-- INX, 0xE8 (43_inx.md R112): X + 1 mod 256, flags from the new X. -/
def execInx (s : State) : Result := writeIndexX (s.x + 1#8) s

end Sys2Proof.Machine
end

