-- ==== Sys2Proof/Machine/Lda.lean ====
section
/-!
DEFINITION. LDA, load accumulator (44_lda.md): one meaning per addressing mode over the arm of R115.
-/

namespace Sys2Proof.Machine

/-- LDA Immediate, 0xA9 (44_lda.md R116). -/
def execLdaImmediate (d8 : Byte) (s : State) : Result := loadRegister State.setA (.immediate d8) s

/-- LDA ZeroPage, 0xA5 (44_lda.md R117). -/
def execLdaZeroPage (d8 : Byte) (s : State) : Result := loadRegister State.setA (.zeroPage d8) s

/-- LDA ZeroPageX, 0xB5 (44_lda.md R118). -/
def execLdaZeroPageX (d8 : Byte) (s : State) : Result := loadRegister State.setA (.zeroPageX d8) s

/-- LDA Absolute, 0xAD (44_lda.md R119). -/
def execLdaAbsolute (a16 : Addr) (s : State) : Result := loadRegister State.setA (.absolute a16) s

/-- LDA AbsoluteX, 0xBD (44_lda.md R120). -/
def execLdaAbsoluteX (a16 : Addr) (s : State) : Result := loadRegister State.setA (.absoluteX a16) s

/-- LDA AbsoluteY, 0xB9 (44_lda.md R121). -/
def execLdaAbsoluteY (a16 : Addr) (s : State) : Result := loadRegister State.setA (.absoluteY a16) s

/-- LDA IndirectX, 0xA1 (44_lda.md R122). -/
def execLdaIndirectX (d8 : Byte) (s : State) : Result := loadRegister State.setA (.indirectX d8) s

/-- LDA IndirectY, 0xB1 (44_lda.md R123): Y is added before the pointer is read (log 8). -/
def execLdaIndirectY (d8 : Byte) (s : State) : Result := loadRegister State.setA (.indirectY d8) s

end Sys2Proof.Machine
end

