-- ==== Sys2Proof/Machine/Ldx.lean ====
section
/-!
DEFINITION. LDX, load index register X (45_ldx.md): one meaning per addressing mode over the arm of R125.
-/

namespace Sys2Proof.Machine

/-- LDX Immediate, 0xA2 (45_ldx.md R126). -/
def execLdxImmediate (d8 : Byte) (s : State) : Result := loadRegister State.setX (.immediate d8) s

/-- LDX ZeroPage, 0xA6 (45_ldx.md R127). -/
def execLdxZeroPage (d8 : Byte) (s : State) : Result := loadRegister State.setX (.zeroPage d8) s

/-- LDX ZeroPageX, 0xB6 (45_ldx.md R128): the address is computed from the old X, and the index is X although the MOS 6502's is Y (log 8). -/
def execLdxZeroPageX (d8 : Byte) (s : State) : Result := loadRegister State.setX (.zeroPageX d8) s

/-- LDX Absolute, 0xAE (45_ldx.md R129). -/
def execLdxAbsolute (a16 : Addr) (s : State) : Result := loadRegister State.setX (.absolute a16) s

/-- LDX AbsoluteY, 0xBE (45_ldx.md R130). -/
def execLdxAbsoluteY (a16 : Addr) (s : State) : Result := loadRegister State.setX (.absoluteY a16) s

end Sys2Proof.Machine
end

