-- ==== Sys2Proof/Machine/Sta.lean ====
section
/-!
DEFINITION. STA, store accumulator (46_sta.md): one meaning per addressing mode over the arm of R132.
-/

namespace Sys2Proof.Machine

/-- STA ZeroPage, 0x85 (46_sta.md R133). -/
def execStaZeroPage (d8 : Byte) (s : State) : Result := storeAccumulator (.zeroPage d8) s

/-- STA ZeroPageX, 0x95 (46_sta.md R134). -/
def execStaZeroPageX (d8 : Byte) (s : State) : Result := storeAccumulator (.zeroPageX d8) s

/-- STA Absolute, 0x8D (46_sta.md R135). -/
def execStaAbsolute (a16 : Addr) (s : State) : Result := storeAccumulator (.absolute a16) s

/-- STA AbsoluteX, 0x9D (46_sta.md R136). -/
def execStaAbsoluteX (a16 : Addr) (s : State) : Result := storeAccumulator (.absoluteX a16) s

/-- STA AbsoluteY, 0x99 (46_sta.md R137). -/
def execStaAbsoluteY (a16 : Addr) (s : State) : Result := storeAccumulator (.absoluteY a16) s

/-- STA IndirectX, 0x81 (46_sta.md R138). -/
def execStaIndirectX (d8 : Byte) (s : State) : Result := storeAccumulator (.indirectX d8) s

/-- STA IndirectY, 0x91 (46_sta.md R139): Y is added before the pointer is read (log 8). -/
def execStaIndirectY (d8 : Byte) (s : State) : Result := storeAccumulator (.indirectY d8) s

end Sys2Proof.Machine
end

