-- ==== Sys2Proof/Machine/Tax.lean ====
section
/-!
DEFINITION. TAX (47_tax.md).
-/

namespace Sys2Proof.Machine

/-- TAX, 0xAA (47_tax.md R141): X becomes A, flags from the new X. -/
def execTax (s : State) : Result := writeIndexX s.a s

end Sys2Proof.Machine
end

