-- ==== Sys2Proof/Machine/Dispatch.lean ====
section
/-!
DEFINITION. The dispatch mux: from an instruction to its meaning (41_engine.md R94). `s` has its PC at the instruction's byte 1.
-/

namespace Sys2Proof.Machine

def exec (i : Instr) (s : State) : Host.Outcome State Fault Refusal :=
  match i with
  | .brk => Sys2Proof.Machine.execBrk s
  | .inx => Sys2Proof.Machine.execInx s
  | .ldaImmediate d8 => Sys2Proof.Machine.execLdaImmediate d8 s
  | .ldaZeroPage d8 => Sys2Proof.Machine.execLdaZeroPage d8 s
  | .ldaZeroPageX d8 => Sys2Proof.Machine.execLdaZeroPageX d8 s
  | .ldaAbsolute a16 => Sys2Proof.Machine.execLdaAbsolute a16 s
  | .ldaAbsoluteX a16 => Sys2Proof.Machine.execLdaAbsoluteX a16 s
  | .ldaAbsoluteY a16 => Sys2Proof.Machine.execLdaAbsoluteY a16 s
  | .ldaIndirectX d8 => Sys2Proof.Machine.execLdaIndirectX d8 s
  | .ldaIndirectY d8 => Sys2Proof.Machine.execLdaIndirectY d8 s
  | .ldxImmediate d8 => Sys2Proof.Machine.execLdxImmediate d8 s
  | .ldxZeroPage d8 => Sys2Proof.Machine.execLdxZeroPage d8 s
  | .ldxZeroPageX d8 => Sys2Proof.Machine.execLdxZeroPageX d8 s
  | .ldxAbsolute a16 => Sys2Proof.Machine.execLdxAbsolute a16 s
  | .ldxAbsoluteY a16 => Sys2Proof.Machine.execLdxAbsoluteY a16 s
  | .staZeroPage d8 => Sys2Proof.Machine.execStaZeroPage d8 s
  | .staZeroPageX d8 => Sys2Proof.Machine.execStaZeroPageX d8 s
  | .staAbsolute a16 => Sys2Proof.Machine.execStaAbsolute a16 s
  | .staAbsoluteX a16 => Sys2Proof.Machine.execStaAbsoluteX a16 s
  | .staAbsoluteY a16 => Sys2Proof.Machine.execStaAbsoluteY a16 s
  | .staIndirectX d8 => Sys2Proof.Machine.execStaIndirectX d8 s
  | .staIndirectY d8 => Sys2Proof.Machine.execStaIndirectY d8 s
  | .tax => Sys2Proof.Machine.execTax s

end Sys2Proof.Machine
end

