-- ==== Sys2Proof/Machine/Fetch.lean ====
section
/-!
DEFINITION. The first half of a step: fetch, first advance, lookup, dispatch, and the operand bytes (41_engine.md R90 to R94), in the
order that fixes which fault is met first (60_exceptions.md R157).
-/

namespace Sys2Proof.Machine

/-- What the first half of a step comes to: an instruction to run in a state whose PC is at byte 1, or the state a fault leaves. -/
inductive Fetched
  | instr (i : Instr) (s : State)
  | raised (s : State)
  deriving DecidableEq, Repr

/-- Complete an instruction from its operand bytes at PC (30_encoding.md R51, R53); the operand word may raise
(40_addressing.md R84). -/
def fetchOperand (format : Format) (s : State) : Fetched :=
  match format with
  | .f1 i => .instr i s
  | .f2 build => .instr (build (Memory.read s.mem s.pc)) s
  | .f3 build =>
    match Memory.readWord s.mem s.pc with
    | .ok a16 => .instr (build a16) s
    | .error e => .raised (raise e s)

/-- Fetch the opcode at PC (41_engine.md R91), advance (R92), look it up (R93), dispatch (R94), and assemble the operand. `s` is the
state before the step, `s1` the one after the first advance, so `s.pc` is the opcode's address (the rules' `PC - 1`). -/
def fetch (extra : CatalogExtra) (s : State) : Fetched :=
  let op := Memory.read s.mem s.pc
  match advance 1 s with
  | .error e => .raised (raise e s)
  | .ok s1 =>
    match lookup extra op with
    | none => .raised (raise (.unrecognizedOpcode op s.pc) s1)
    | some d =>
      match dispatchFormat d with
      | none => .raised (raise (.notImplemented op s.pc) s1)
      | some format => fetchOperand format s1

/-- The bytes from PC upward that an instruction there can have: three, or as many as the address space still holds. -/
def bytesAtPc (s : State) : List Byte :=
  ((List.range 3).filter fun k => decide (s.pc.toNat + k < Config.memSize)).map
    fun k => Memory.readAt s.mem (s.pc.toNat + k)

/-- An instruction's bytes stored at PC upward, as far as the address space goes, and the engine Running (log 2). -/
def placeAtPc (bytes : List Byte) (s : State) : State :=
  { s with
    mem := Memory.writeBytes s.mem s.pc.toNat (bytes.take (Config.memSize - s.pc.toNat))
    phase := .running }

end Sys2Proof.Machine
end

