-- ==== Sys2Proof/Machine/Step.lean ====
section
/-!
DEFINITION. One step of the one agent (41_engine.md R90), and how the host places an instruction for it.
-/

namespace Sys2Proof.Machine

/-- One step for a value of `CATALOG_EXTRA`: enabled only in phase Running (41_engine.md R90); elsewhere the machine is stuck by
name. -/
def stepWith (extra : CatalogExtra) (s : State) : Host.Outcome State Fault Refusal :=
  match s.phase with
  | .running =>
    match fetch extra s with
    | .instr i s1 => exec i s1
    | .raised s1 => .next s1
  | .notLoaded => .fault (.notEnabled .notLoaded)
  | .loaded => .fault (.notEnabled .loaded)
  | .reset => .fault (.notEnabled .reset)
  | .halted => .fault (.notEnabled .halted)

/-- One step of the machine: `CATALOG_EXTRA` has its default (00_scope.md R4). -/
def step (s : State) : Host.Outcome State Fault Refusal := stepWith CatalogExtra.default s

/-- `s` with an instruction's bytes where the next step fetches, and in phase Running, so that the very next step runs it. It stands
for the host's `load`, `reset` and `execute` (log 2). -/
def State.withFetchWord (s : State) (nbits w : Nat) : State := placeAtPc (tableBytes nbits w) s

end Sys2Proof.Machine
end

