-- ==== Sys2Proof/Machine/Commands.lean ====
section
/-!
DEFINITION. The host's interface (10_state.md R25, R27, R28): the commands `load`, `reset`, `execute`, `run`
(70_reset_and_hazards.md R180, R181, R183; 41_engine.md R97, R98), the observations, and the writes that set a test up.
A command issued in a phase that does not allow it is refused and changes nothing (60_exceptions.md R169). What steps the engine takes
`CATALOG_EXTRA` as an argument (00_scope.md R4); the machine's own `execute` and `run` give it the default.
-/

namespace Sys2Proof.Machine

/-- `load(program)` (70_reset_and_hazards.md R181): the size test, the copy, the reset vector, PC, latch, phase, in this order. -/
def loadProgram (program : List Byte) (s : State) : State :=
  if Config.maxProgram < program.length then raise (.outOfRange program.length) s
  else
    match Memory.writeWord (Memory.writeBytes s.mem Config.origin.toNat program) Config.resetVector Config.origin with
    | .error e => raise e s
    | .ok mem => { s with mem := mem, pc := Config.origin, err := none, phase := .loaded }

/-- `reset` (70_reset_and_hazards.md R180): A, X, Y, P zero, PC from the reset vector, no error; the phase becomes Reset but for an
engine that has loaded nothing. No flag update (90_conflicts.md C6). -/
def resetEngine (s : State) : State :=
  match Memory.readWord s.mem Config.resetVector with
  | .error e => raise e s
  | .ok vector =>
    { s with
      a := 0x00#8
      x := 0x00#8
      y := 0x00#8
      p := 0x00#8
      pc := vector
      err := none
      phase := if s.phase = .notLoaded then .notLoaded else .reset }

/-- Steps while the phase is Running, at most `n` of them (41_engine.md R97, R100), for a value of `CATALOG_EXTRA`. A state still
Running at the end means that the budget ran out. -/
def stepsWhileRunning (extra : CatalogExtra) : Nat → State → Result
  | 0, s => .next s
  | n + 1, s =>
    if s.phase = .running then
      match stepWith extra s with
      | .next s' => stepsWhileRunning extra n s'
      | .fault r => .fault r
      | .refused r => .refused r
    else .next s

/-- A command that no phase but Running shuts out (10_state.md R25, R28). -/
def unlessRunning (name : CommandName) (act : State → State) (s : State) : Result :=
  if s.phase = .running then .refused (.command name s.phase) else .next (act s)

/-- The host's `load` (70_reset_and_hazards.md R181, R183). -/
def hostLoad (program : List Byte) (s : State) : Result := unlessRunning .load (loadProgram program) s

/-- The host's `reset` (70_reset_and_hazards.md R180, R183). -/
def hostReset (s : State) : Result := unlessRunning .reset resetEngine s

/-- The host's `execute` under a step budget (41_engine.md R97, R100): accepted in phase Reset alone (70_reset_and_hazards.md R183). -/
def hostExecuteWithin (extra : CatalogExtra) (budget : Nat) (s : State) : Result :=
  if s.phase = .reset then stepsWhileRunning extra budget { s with phase := .running }
  else .refused (.command .execute s.phase)

/-- The host's `execute` (41_engine.md R97) for a value of `CATALOG_EXTRA`, with a budget that no run exhausts (R100; log 11). -/
def hostExecuteWith (extra : CatalogExtra) (s : State) : Result := hostExecuteWithin extra Config.fuel s

/-- The host's `execute`: `CATALOG_EXTRA` has its default (log 5). -/
def hostExecute (s : State) : Result := hostExecuteWith CatalogExtra.default s

/-- The host's `run(program)` (41_engine.md R98) for a value of `CATALOG_EXTRA`: load, reset, execute, and the load's fault alone where
it faults. -/
def hostRunWith (extra : CatalogExtra) (program : List Byte) (s : State) : Result :=
  if s.phase = .running then .refused (.command .run s.phase)
  else
    let loaded := loadProgram program s
    if loaded.phase = .halted then .next loaded else hostExecuteWith extra (resetEngine loaded)

/-- The host's `run(program)`: `CATALOG_EXTRA` has its default (log 5). -/
def hostRun (program : List Byte) (s : State) : Result := hostRunWith CatalogExtra.default program s

/-- Memory poke (10_state.md R28). -/
def hostPoke (a : Addr) (v : Byte) (s : State) : Result := unlessRunning .poke (State.store a v) s

/-- Register writes (10_state.md R28): no flag update, no change of phase or latch. -/
def hostWriteA (v : Byte) (s : State) : Result := unlessRunning .writeRegister (State.setA v) s

@[inherit_doc hostWriteA]
def hostWriteX (v : Byte) (s : State) : Result := unlessRunning .writeRegister (State.setX v) s

@[inherit_doc hostWriteA]
def hostWriteY (v : Byte) (s : State) : Result := unlessRunning .writeRegister (State.setY v) s

@[inherit_doc hostWriteA]
def hostWriteP (v : Byte) (s : State) : Result := unlessRunning .writeRegister (State.setP v) s

@[inherit_doc hostWriteA]
def hostWritePc (v : Addr) (s : State) : Result := unlessRunning .writeRegister (State.setPc v) s

/-- Memory peek (10_state.md R27). The registers, the phase and the latch are read as the fields of State. -/
def State.peek (s : State) (a : Addr) : Byte := Memory.read s.mem a

/-- The `halted` output (10_state.md R27). -/
def State.halted (s : State) : Bool := decide (s.phase = .halted)

end Sys2Proof.Machine
end

