-- ==== Sys2Proof/Machine/RuleStep.lean ====
section
/-!
DEFINITION. The pseudocode of 41_engine.md R90 word for word, with the descriptor's mode as an arm's one parameter (R94) and operands
read only by the resolver (R102). The machine does not call it: a statement says that `step` is this, so that the fetch of operands
ahead of `exec` (log 13) rests on no one's reading.
-/

namespace Sys2Proof.Machine

/-- Step 5 of the pseudocode: `if PC + (d.length - 1) > 0xFFFF then raise ...; PC <- PC + (d.length - 1)`. -/
def ruleAdvance (length : Nat) (s : State) : State :=
  if s.pc.toNat + (length - 1) > 0xFFFF then raise (.outOfRange (s.pc.toNat + length - 1)) s
  else { s with pc := s.pc + BitVec.ofNat 16 (length - 1) }

/-- Steps 1 to 5 of the pseudocode. -/
def ruleStep (extra : CatalogExtra) (s : State) : State :=
  let op := Memory.read s.mem s.pc
  if s.pc = 0xFFFF#16 then raise (.outOfRange 0x10000) s
  else
    let s := { s with pc := s.pc + 1#16 }
    match lookup extra op with
    | none => raise (.unrecognizedOpcode op (s.pc - 1#16)) s
    | some d =>
      match d.mnemonic with
      | some .brk => halt s
      | some .inx =>
        let s := { s with x := s.x + 1#8 }
        ruleAdvance d.length { s with p := setZN s.p s.x }
      | some .lda =>
        match s.effectiveAddress d.mode with
        | .error e => raise e s
        | .ok ea =>
          let s := { s with a := Memory.read s.mem ea }
          ruleAdvance d.length { s with p := setZN s.p s.a }
      | some .ldx =>
        match s.effectiveAddress d.mode with
        | .error e => raise e s
        | .ok ea =>
          let s := { s with x := Memory.read s.mem ea }
          ruleAdvance d.length { s with p := setZN s.p s.x }
      | some .sta =>
        match s.effectiveAddress d.mode with
        | .error e => raise e s
        | .ok ea => ruleAdvance d.length { s with mem := Memory.write s.mem ea s.a }
      | some .tax =>
        let s := { s with x := s.a }
        ruleAdvance d.length { s with p := setZN s.p s.x }
      | none => raise (.notImplemented op (s.pc - 1#16)) s

end Sys2Proof.Machine
end

