-- ==== Sys2Proof/Safety.lean ====
section
/-!
DEFINITION. The terms in which claims speak of runs: how a run has ended (41_engine.md R99), and the invariant of the state.
-/

namespace Sys2Proof.Machine

/-- A good end: Halted with no error; then the last instruction was BRK (41_engine.md R99). -/
abbrev GoodEnd (s : State) : Prop := s.phase = .halted ∧ s.err = none

/-- A faulted end (41_engine.md R99). -/
abbrev FaultedEnd (s : State) : Prop := s.phase = .halted ∧ s.err ≠ none

/-- What every reachable state meets: memory is in its canonical form, and a latched error goes with Halted
(60_exceptions.md R158). -/
structure Inv (s : State) : Prop where
  memory : Memory.wf s.mem = true
  latch  : s.err ≠ none → s.phase = .halted

/-- The reserved bits of the status byte: 0 and 2 to 6 (10_state.md R18). -/
def reservedBits : Byte := 0x7D#8

/-- `i`, of `length` bytes, with `s.pc` at its byte 1, puts `v` into A with the flags of `v` and changes nothing else: it completes
where the second advance stays in the address space, and else ends in its OutOfRange with A and P written (44_lda.md R115; the
second clause is the spec's decision D3, log 7). -/
def LoadsA (i : Instr) (length : Nat) (v : Byte) (s : State) : Prop :=
  (s.pc.toNat + (length - 1) ≤ 0xFFFF →
    exec i s = .next { s with a := v, p := setZN s.p v, pc := s.pc + BitVec.ofNat 16 (length - 1) }) ∧
  (0xFFFF < s.pc.toNat + (length - 1) →
    exec i s = .next (raise (.outOfRange (s.pc.toNat + (length - 1))) { s with a := v, p := setZN s.p v }))

/-- The same for register X (45_ldx.md R125). -/
def LoadsX (i : Instr) (length : Nat) (v : Byte) (s : State) : Prop :=
  (s.pc.toNat + (length - 1) ≤ 0xFFFF →
    exec i s = .next { s with x := v, p := setZN s.p v, pc := s.pc + BitVec.ofNat 16 (length - 1) }) ∧
  (0xFFFF < s.pc.toNat + (length - 1) →
    exec i s = .next (raise (.outOfRange (s.pc.toNat + (length - 1))) { s with x := v, p := setZN s.p v }))

/-- `i`, of `length` bytes, with `s.pc` at its byte 1, writes A at `ea` and changes nothing else but PC: it completes where the second
advance stays in the address space, and else ends in its OutOfRange with the byte stored (46_sta.md R132; the second clause is the
spec's decision D3, log 7). -/
def StoresAAt (i : Instr) (length : Nat) (ea : Addr) (s : State) : Prop :=
  (s.pc.toNat + (length - 1) ≤ 0xFFFF →
    exec i s = .next { s with mem := Memory.write s.mem ea s.a, pc := s.pc + BitVec.ofNat 16 (length - 1) }) ∧
  (0xFFFF < s.pc.toNat + (length - 1) →
    exec i s = .next
      (raise (.outOfRange (s.pc.toNat + (length - 1))) { s with mem := Memory.write s.mem ea s.a }))

/-- The word that a zero-page pointer at `ptr` holds: low byte at `ptr`, high byte at `ptr + 1`, not wrapped in the page
(40_addressing.md R79, R80; log 8). -/
def pointerWord (mem : Memory) (ptr : Byte) : Addr :=
  wordOf (Memory.read mem (zext16 ptr + 1#16)) (Memory.read mem (zext16 ptr))

/-- The phase and the latch are as before, or a fault was raised. -/
def KeepsEngine (s t : State) : Prop :=
  (t.phase = s.phase ∧ t.err = s.err) ∨ (t.phase = .halted ∧ t.err ≠ none)

end Sys2Proof.Machine
end

