-- ==== Sys2Proof/Certificates/Slice0/Obligations.lean ====
section
/-!
DEFINITION. The statements for the provers. A clause that follows a decision the spec marks as its own (D3, D5 to D8, D10 to D18, D21, D24, D25,
D31) is said to do so; the log entry named with it is the model's.
-/

open Sys2Proof Sys2Proof.Machine

/-- Decoding and encoding are inverse, for every value of `CATALOG_EXTRA`: the decoder reads `i` off the head of some bytes exactly when
they begin with the encoding of `i` (30_encoding.md sections 1 to 3). The bytes of 18 rows are the spec's decision D8 (log 6). -/
def Obligations.DecodeReadsExactlyEncodings : Prop :=
  ∀ (extra : CatalogExtra) (bytes rest : List Byte) (i : Instr),
    decodeWith extra bytes = .ok (i, rest) ↔ bytes = encode i ++ rest

/-- The five instruction words that the source document itself shows, and three others, decode to what they stand for
(30_encoding.md R54; the last three bytes are decision D8, log 6). -/
def Obligations.DocumentedWordsDecode : Prop :=
  decode [0x00#8] = .ok (.brk, []) ∧
  decode [0xA9#8, 0xC0#8] = .ok (.ldaImmediate 0xC0#8, []) ∧
  decode [0xA5#8, 0x10#8] = .ok (.ldaZeroPage 0x10#8, []) ∧
  decode [0xAA#8] = .ok (.tax, []) ∧
  decode [0xE8#8] = .ok (.inx, []) ∧
  decode [0x8D#8, 0x00#8, 0x02#8] = .ok (.staAbsolute 0x0200#16, []) ∧
  decode [0xBE#8, 0xF0#8, 0x02#8] = .ok (.ldxAbsoluteY 0x02F0#16, []) ∧
  decode [0xA1#8, 0x20#8] = .ok (.ldaIndirectX 0x20#8, [])

/-- The 23 legal bytes of 30_encoding.md R57, and no other, are keys of the default catalog; 0xFF is a key for no legal value of
`CATALOG_EXTRA`, and what makes a value legal: with the 23 rows it has no byte twice (30_encoding.md R55; 00_scope.md R4), 0xFF is not in it (R4, decision
D10, log 5), and every length is its mode's (30_encoding.md R52, decision D9, log 23). Which bytes the 18 rows have is decision D8 (log 6). -/
def Obligations.LegalOpcodeBytes : Prop :=
  (∀ op : Byte, (lookup CatalogExtra.default op).isSome ↔
    op ∈ [0x00#8, 0x81#8, 0x85#8, 0x8D#8, 0x91#8, 0x95#8, 0x99#8, 0x9D#8, 0xA1#8, 0xA2#8, 0xA5#8, 0xA6#8, 0xA9#8, 0xAA#8,
      0xAD#8, 0xAE#8, 0xB1#8, 0xB5#8, 0xB6#8, 0xB9#8, 0xBD#8, 0xBE#8, 0xE8#8]) ∧
  (∀ extra : CatalogExtra, lookup extra 0xFF#8 = none) ∧
  (∀ entries : List ExtraEntry, (∃ extra, CatalogExtra.ofEntries entries = some extra ∧ extra.entries = entries) ↔
    (catalogCodes ++ entries.map ExtraEntry.code).Nodup ∧ 0xFF#8 ∉ entries.map ExtraEntry.code ∧
      ∀ e ∈ entries, e.length = e.mode.length)

/-- Keys are unique (30_encoding.md R55): a list of descriptors with one byte twice is refused, whatever the rows, and so is a value of
`CATALOG_EXTRA` that would make one of this catalog; in every catalog of the block no byte is twice, so that each descriptor is what its
byte looks up and none is shadowed; and the seven STA bytes are distinct. The bytes of 18 rows are decision D8 (log 6). -/
def Obligations.CatalogKeysAreUnique : Prop :=
  (∀ rows : List Descriptor, ¬ (rows.map Descriptor.code).Nodup → catalogWf rows = false) ∧
  (∀ entries : List ExtraEntry, ¬ (catalogCodes ++ entries.map ExtraEntry.code).Nodup →
    CatalogExtra.ofEntries entries = none) ∧
  (∀ extra : CatalogExtra, (extra.rows.map Descriptor.code).Nodup ∧ ∀ d ∈ extra.rows, lookup extra d.code = some d) ∧
  ((catalog.filter fun d => d.mnemonic = some .sta).map Descriptor.code).Nodup ∧
  (catalog.filter fun d => d.mnemonic = some .sta).length = 7

/-- A byte that is not in the catalog ends the step with UnrecognizedOpcode, the byte and its address recorded, and nothing but PC
changed: PC is one past the byte (41_engine.md R93, 60_exceptions.md R152). -/
def Obligations.UnrecognizedOpcodeRaises : Prop :=
  ∀ (extra : CatalogExtra) (s : State), s.phase = .running → s.pc ≠ 0xFFFF#16 →
    lookup extra (Memory.read s.mem s.pc) = none →
    stepWith extra s = .next
      { s with pc := s.pc + 1#16, phase := .halted, err := some (.unrecognizedOpcode (Memory.read s.mem s.pc) s.pc) }

/-- A byte of `CATALOG_EXTRA` ends the step with NotImplemented, with the same record and the same state; with the default empty set no
step raises it (60_exceptions.md R153). -/
def Obligations.NotImplementedRaises : Prop :=
  (∀ (extra : CatalogExtra) (e : ExtraEntry) (s : State), e ∈ extra.entries →
    s.phase = .running → s.pc ≠ 0xFFFF#16 → Memory.read s.mem s.pc = e.code →
    stepWith extra s = .next
      { s with pc := s.pc + 1#16, phase := .halted, err := some (.notImplemented e.code s.pc) }) ∧
  (∀ (s t : State) (op : Byte) (addr : Addr), s.err = none → step s = .next t → t.err ≠ some (.notImplemented op addr))

/-- Where the bytes at PC decode to `i`, a step in phase Running is `exec i` with PC moved to byte 1: the fetch adds the first advance
and nothing else (41_engine.md R90 to R94). That `i` carries its operand is the model's reading, log 13. -/
def Obligations.StepRunsDecodedInstruction : Prop :=
  ∀ (s : State) (i : Instr) (rest : List Byte), s.phase = .running → s.pc ≠ 0xFFFF#16 →
    decode (bytesAtPc s) = .ok (i, rest) → step s = exec i { s with pc := s.pc + 1#16 }

/-- Outside phase Running no step is enabled: the model is stuck by name and no state follows (41_engine.md R90, R99). The stuck state is
the model's form of it, log 3. -/
def Obligations.StepEnabledOnlyWhenRunning : Prop :=
  ∀ (extra : CatalogExtra) (s : State), s.phase ≠ .running → stepWith extra s = .fault (.notEnabled s.phase)

/-- The machine's step, which decodes the operands into the instruction, is the pseudocode of 41_engine.md R90, in which the arm has the
mode alone and the resolver reads the operands: it answers `t` exactly in phase Running and exactly for the pseudocode's end state, for
every value of `CATALOG_EXTRA`. The PC tests of the pseudocode are decision D3 (log 7). -/
def Obligations.StepIsTheSpecPseudocode : Prop :=
  ∀ (extra : CatalogExtra) (s t : State),
    stepWith extra s = .next t ↔ s.phase = .running ∧ t = ruleStep extra s

/-- An opcode at 0xFFFF is never decoded: the first advance raises OutOfRange and nothing else changes, whatever the byte
(decision D3, log 7). -/
def Obligations.OpcodeAtTopFaults : Prop :=
  ∀ (extra : CatalogExtra) (s : State), s.phase = .running → s.pc = 0xFFFF#16 →
    stepWith extra s = .next { s with phase := .halted, err := some (.outOfRange 0x10000) }

/-- A three-byte instruction at 0xFFFE faults on its operand word, before anything but PC has changed (40_addressing.md R84,
60_exceptions.md R151; which opcodes they are is decision D8, log 6). -/
def Obligations.OperandWordAtTopFaults : Prop :=
  ∀ s : State, s.phase = .running → s.pc = 0xFFFE#16 →
    Memory.read s.mem 0xFFFE#16 ∈ [0xAD#8, 0xBD#8, 0xB9#8, 0xAE#8, 0xBE#8, 0x8D#8, 0x9D#8, 0x99#8] →
    step s = .next { s with pc := 0xFFFF#16, phase := .halted, err := some (.outOfRange 0x10000) }

/-- BRK completes in every state and enters Halted and changes nothing else: no register, no flag, no memory, no second advance, and the
latch stays; so a run without an error ends well, and no other instruction ends one so; and a step over its byte leaves PC one past it
(42_brk.md R110; that the second advance is skipped is decision D21, log 22). -/
def Obligations.BrkHalts : Prop :=
  encode .brk = [0x00#8] ∧
  (∀ s : State, ∃ t, exec .brk s = .next t ∧ t = { s with phase := .halted } ∧ (s.err = none → GoodEnd t)) ∧
  (∀ (i : Instr) (s t : State), s.phase = .running → s.err = none → exec i s = .next t → GoodEnd t → i = .brk) ∧
  (∀ s : State, s.phase = .running → s.pc ≠ 0xFFFF#16 → Memory.read s.mem s.pc = 0x00#8 →
    step s = .next { s with pc := s.pc + 1#16, phase := .halted })

/-- INX completes in every state: X + 1 mod 256 and the flags of the new X, nothing else; Z iff the old X was 0xFF, N iff it was in
0x7F..0xFE; and a step over its byte leaves PC one past it (43_inx.md R112). -/
def Obligations.InxIncrementsX : Prop :=
  encode .inx = [0xE8#8] ∧
  (∀ s : State, ∃ v t, v = BitVec.ofNat 8 ((s.x.toNat + 1) % 256) ∧ exec .inx s = .next t ∧
    t = { s with x := v, p := setZN s.p v } ∧
    (t.flagZ = true ↔ s.x = 0xFF#8) ∧ (t.flagN = true ↔ 0x7F ≤ s.x.toNat ∧ s.x.toNat ≤ 0xFE)) ∧
  (∀ s : State, s.phase = .running → s.pc ≠ 0xFFFF#16 → Memory.read s.mem s.pc = 0xE8#8 →
    step s = .next { s with x := s.x + 1#8, p := setZN s.p (s.x + 1#8), pc := s.pc + 1#16 })

/-- TAX completes in every state: X becomes A, with the flags of A, nothing else; and a step over its byte leaves PC one past it
(47_tax.md R141). -/
def Obligations.TaxCopiesA : Prop :=
  encode .tax = [0xAA#8] ∧
  (∀ s : State, ∃ t, exec .tax s = .next t ∧ t = { s with x := s.a, p := setZN s.p s.a } ∧
    (t.flagZ = true ↔ s.a = 0x00#8) ∧ t.flagN = s.a.getLsbD 7) ∧
  (∀ s : State, s.phase = .running → s.pc ≠ 0xFFFF#16 → Memory.read s.mem s.pc = 0xAA#8 →
    step s = .next { s with x := s.a, p := setZN s.p s.a, pc := s.pc + 1#16 })

/-- LDA Immediate, ZeroPage, ZeroPageX: their bytes, the byte that reaches A, and all that changes (44_lda.md). The byte 0xB5 is
decision D8 (log 6). -/
def Obligations.LdaImmediateAndZeroPage : Prop :=
  ∀ (d8 : Byte) (s : State),
    encode (.ldaImmediate d8) = [0xA9#8, d8] ∧ LoadsA (.ldaImmediate d8) 2 d8 s ∧
    encode (.ldaZeroPage d8) = [0xA5#8, d8] ∧ LoadsA (.ldaZeroPage d8) 2 (Memory.read s.mem (zext16 d8)) s ∧
    encode (.ldaZeroPageX d8) = [0xB5#8, d8] ∧ LoadsA (.ldaZeroPageX d8) 2 (Memory.read s.mem (zext16 (d8 + s.x))) s

/-- LDA Absolute, AbsoluteX, AbsoluteY: their bytes, low operand byte first, the byte that reaches A with the sum taken mod 65536, and
all that changes (44_lda.md). The opcode bytes are decision D8 (log 6). -/
def Obligations.LdaAbsoluteModes : Prop :=
  ∀ (lo hi : Byte) (s : State),
    encode (.ldaAbsolute (wordOf hi lo)) = [0xAD#8, lo, hi] ∧
    LoadsA (.ldaAbsolute (wordOf hi lo)) 3 (Memory.read s.mem (wordOf hi lo)) s ∧
    encode (.ldaAbsoluteX (wordOf hi lo)) = [0xBD#8, lo, hi] ∧
    LoadsA (.ldaAbsoluteX (wordOf hi lo)) 3 (Memory.read s.mem (wordOf hi lo + zext16 s.x)) s ∧
    encode (.ldaAbsoluteY (wordOf hi lo)) = [0xB9#8, lo, hi] ∧
    LoadsA (.ldaAbsoluteY (wordOf hi lo)) 3 (Memory.read s.mem (wordOf hi lo + zext16 s.y)) s

/-- LDA IndirectX and IndirectY: both index the pointer's location, mod 256, and nothing after (44_lda.md; decisions D5, D6 and, for the
bytes, D8: logs 6, 8). -/
def Obligations.LdaIndirectModes : Prop :=
  ∀ (d8 : Byte) (s : State),
    encode (.ldaIndirectX d8) = [0xA1#8, d8] ∧
    LoadsA (.ldaIndirectX d8) 2 (Memory.read s.mem (pointerWord s.mem (d8 + s.x))) s ∧
    encode (.ldaIndirectY d8) = [0xB1#8, d8] ∧
    LoadsA (.ldaIndirectY d8) 2 (Memory.read s.mem (pointerWord s.mem (d8 + s.y))) s

/-- LDX Immediate, ZeroPage, ZeroPageX: in the last the old X indexes the byte that replaces it (45_ldx.md; the bytes and the mode of
0xB6 are decisions D7, D8: logs 6, 8). -/
def Obligations.LdxImmediateAndZeroPage : Prop :=
  ∀ (d8 : Byte) (s : State),
    encode (.ldxImmediate d8) = [0xA2#8, d8] ∧ LoadsX (.ldxImmediate d8) 2 d8 s ∧
    encode (.ldxZeroPage d8) = [0xA6#8, d8] ∧ LoadsX (.ldxZeroPage d8) 2 (Memory.read s.mem (zext16 d8)) s ∧
    encode (.ldxZeroPageX d8) = [0xB6#8, d8] ∧ LoadsX (.ldxZeroPageX d8) 2 (Memory.read s.mem (zext16 (d8 + s.x))) s

/-- LDX Absolute and AbsoluteY (45_ldx.md; the bytes are decision D8, log 6). -/
def Obligations.LdxAbsoluteModes : Prop :=
  ∀ (lo hi : Byte) (s : State),
    encode (.ldxAbsolute (wordOf hi lo)) = [0xAE#8, lo, hi] ∧
    LoadsX (.ldxAbsolute (wordOf hi lo)) 3 (Memory.read s.mem (wordOf hi lo)) s ∧
    encode (.ldxAbsoluteY (wordOf hi lo)) = [0xBE#8, lo, hi] ∧
    LoadsX (.ldxAbsoluteY (wordOf hi lo)) 3 (Memory.read s.mem (wordOf hi lo + zext16 s.y)) s

/-- STA ZeroPage and ZeroPageX (46_sta.md; the bytes are decision D8, log 6). -/
def Obligations.StaZeroPageModes : Prop :=
  ∀ (d8 : Byte) (s : State),
    encode (.staZeroPage d8) = [0x85#8, d8] ∧ StoresAAt (.staZeroPage d8) 2 (zext16 d8) s ∧
    encode (.staZeroPageX d8) = [0x95#8, d8] ∧ StoresAAt (.staZeroPageX d8) 2 (zext16 (d8 + s.x)) s

/-- STA Absolute, AbsoluteX, AbsoluteY (46_sta.md; the bytes are decision D8, log 6). -/
def Obligations.StaAbsoluteModes : Prop :=
  ∀ (lo hi : Byte) (s : State),
    encode (.staAbsolute (wordOf hi lo)) = [0x8D#8, lo, hi] ∧
    StoresAAt (.staAbsolute (wordOf hi lo)) 3 (wordOf hi lo) s ∧
    encode (.staAbsoluteX (wordOf hi lo)) = [0x9D#8, lo, hi] ∧
    StoresAAt (.staAbsoluteX (wordOf hi lo)) 3 (wordOf hi lo + zext16 s.x) s ∧
    encode (.staAbsoluteY (wordOf hi lo)) = [0x99#8, lo, hi] ∧
    StoresAAt (.staAbsoluteY (wordOf hi lo)) 3 (wordOf hi lo + zext16 s.y) s

/-- STA IndirectX and IndirectY (46_sta.md; decisions D5, D6 and, for the bytes, D8: logs 6, 8). -/
def Obligations.StaIndirectModes : Prop :=
  ∀ (d8 : Byte) (s : State),
    encode (.staIndirectX d8) = [0x81#8, d8] ∧ StoresAAt (.staIndirectX d8) 2 (pointerWord s.mem (d8 + s.x)) s ∧
    encode (.staIndirectY d8) = [0x91#8, d8] ∧ StoresAAt (.staIndirectY d8) 2 (pointerWord s.mem (d8 + s.y)) s

/-- The frame of the instructions that write a register, whatever becomes of them: Y, the reserved bits of P and every byte of memory stay;
LDA leaves X, the others leave A; phase and latch change only by a fault (44_lda.md R115, 45_ldx.md R125, 43_inx.md, 47_tax.md). -/
def Obligations.RegisterInstructionFrame : Prop :=
  ∀ (i : Instr) (s t : State), i.mnemonic ∈ [Mnemonic.lda, .ldx, .inx, .tax] → exec i s = .next t →
    t.y = s.y ∧ t.p &&& reservedBits = s.p &&& reservedBits ∧ (∀ b : Addr, Memory.read t.mem b = Memory.read s.mem b) ∧
    (i.mnemonic = .lda → t.x = s.x) ∧ (i.mnemonic ≠ .lda → t.a = s.a) ∧ KeepsEngine s t

/-- The frame of the stores, whatever becomes of them: no register and no bit of P changes; the operand has an address, the byte there is
A, and every byte at another address reads as before; phase and latch change only by a fault (46_sta.md R132). -/
def Obligations.StoreFrame : Prop :=
  ∀ (i : Instr) (s t : State), Memory.wf s.mem = true → i.mnemonic = .sta → exec i s = .next t →
    t.a = s.a ∧ t.x = s.x ∧ t.y = s.y ∧ t.p = s.p ∧ KeepsEngine s t ∧ (∃ ea, s.addressOf i.form = .ok ea) ∧
    ∀ ea, s.addressOf i.form = .ok ea →
      Memory.read t.mem ea = s.a ∧ ∀ b : Addr, b ≠ ea → Memory.read t.mem b = Memory.read s.mem b

/-- Z and N are written by exactly the flag-updating instructions, and then say of the 8-bit result whether it is zero and what its bit 7
is; STA and BRK leave them (10_state.md R16, R17). -/
def Obligations.FlagsFollowResult : Prop :=
  ∀ (i : Instr) (s t : State), exec i s = .next t →
    (i.mnemonic = .lda → (t.flagZ = true ↔ t.a = 0x00#8) ∧ t.flagN = t.a.getLsbD 7) ∧
    (i.mnemonic ∈ [Mnemonic.ldx, .inx, .tax] → (t.flagZ = true ↔ t.x = 0x00#8) ∧ t.flagN = t.x.getLsbD 7) ∧
    (i.mnemonic ∈ [Mnemonic.sta, .brk] → t.flagZ = s.flagZ ∧ t.flagN = s.flagN)

/-- SetZN bit by bit: bit 7 is the result's, bit 1 says that it is zero, the six others stay; the two flags are never both set; and the
rule's worked examples (10_state.md R19). -/
def Obligations.SetZnBits : Prop :=
  (∀ p r : Byte,
    setZN p r = (p &&& 0x7D#8) ||| (r &&& 0x80#8) ||| (if r = 0x00#8 then 0x02#8 else 0x00#8) ∧
    (setZN p r).getLsbD 7 = r.getLsbD 7 ∧ ((setZN p r).getLsbD 1 = true ↔ r = 0x00#8) ∧
    (∀ k < 8, k ≠ 7 → k ≠ 1 → (setZN p r).getLsbD k = p.getLsbD k) ∧
    ¬ ((setZN p r).getLsbD 7 = true ∧ (setZN p r).getLsbD 1 = true)) ∧
  setZN 0x7D#8 0x00#8 = 0x7F#8 ∧ setZN 0x7F#8 0x80#8 = 0xFD#8 ∧ setZN 0x00#8 0x05#8 = 0x00#8

/-- EA of Immediate, ZeroPage, ZeroPageX and ZeroPageY: the first is PC, the others lie in the zero page, the sums mod 256
(40_addressing.md R71 to R74). -/
def Obligations.ResolverZeroPageModes : Prop :=
  ∀ (pc : Addr) (x y : Byte) (mem : Memory),
    effectiveAddress .immediate pc x y mem = .ok pc ∧
    effectiveAddress .zeroPage pc x y mem = .ok (BitVec.ofNat 16 (Memory.read mem pc).toNat) ∧
    effectiveAddress .zeroPageX pc x y mem = .ok (BitVec.ofNat 16 (((Memory.read mem pc).toNat + x.toNat) % 256)) ∧
    effectiveAddress .zeroPageY pc x y mem = .ok (BitVec.ofNat 16 (((Memory.read mem pc).toNat + y.toNat) % 256))

/-- EA of Absolute, AbsoluteX and AbsoluteY: the little-endian word at PC, plus the index mod 65536; OutOfRange exactly for PC = 0xFFFF
(40_addressing.md R75 to R77). -/
def Obligations.ResolverAbsoluteModes : Prop :=
  ∀ (pc : Addr) (x y : Byte) (mem : Memory),
    (pc ≠ 0xFFFF#16 →
      let w := (Memory.read mem (pc + 1#16)).toNat * 256 + (Memory.read mem pc).toNat
      effectiveAddress .absolute pc x y mem = .ok (BitVec.ofNat 16 w) ∧
      effectiveAddress .absoluteX pc x y mem = .ok (BitVec.ofNat 16 ((w + x.toNat) % 65536)) ∧
      effectiveAddress .absoluteY pc x y mem = .ok (BitVec.ofNat 16 ((w + y.toNat) % 65536))) ∧
    (pc = 0xFFFF#16 →
      effectiveAddress .absolute pc x y mem = .error (.outOfRange 0x10000) ∧
      effectiveAddress .absoluteX pc x y mem = .error (.outOfRange 0x10000) ∧
      effectiveAddress .absoluteY pc x y mem = .error (.outOfRange 0x10000))

/-- EA of Indirect, IndirectX and IndirectY: a word is read at the pointer, its high byte from the pointer + 1 even across a page; both
indexed modes add before the read (40_addressing.md R78 to R80; decisions D5 and D6, log 8). -/
def Obligations.ResolverIndirectModes : Prop :=
  ∀ (pc : Addr) (x y : Byte) (mem : Memory),
    effectiveAddress .indirectX pc x y mem = .ok (pointerWord mem (Memory.read mem pc + x)) ∧
    effectiveAddress .indirectY pc x y mem = .ok (pointerWord mem (Memory.read mem pc + y)) ∧
    (pc = 0xFFFF#16 → effectiveAddress .indirect pc x y mem = .error (.outOfRange 0x10000)) ∧
    (pc ≠ 0xFFFF#16 →
      let ptr := wordOf (Memory.read mem (pc + 1#16)) (Memory.read mem pc)
      (ptr = 0xFFFF#16 → effectiveAddress .indirect pc x y mem = .error (.outOfRange 0x10000)) ∧
      (ptr ≠ 0xFFFF#16 → effectiveAddress .indirect pc x y mem =
        .ok (wordOf (Memory.read mem (ptr + 1#16)) (Memory.read mem ptr))))

/-- Accumulator and NoneAddressing always fail, with their tag codes 10 and 11 (40_addressing.md R81). -/
def Obligations.ResolverRefusesInapplicableModes : Prop :=
  ∀ (pc : Addr) (x y : Byte) (mem : Memory),
    effectiveAddress .accumulator pc x y mem = .error (.invalidAddressingMode .accumulator) ∧
    effectiveAddress .noneAddressing pc x y mem = .error (.invalidAddressingMode .noneAddressing) ∧
    Mode.tag .accumulator = 10 ∧ Mode.tag .noneAddressing = 11

/-- The faults of the resolver, the complete list of 40_addressing.md R84. -/
def Obligations.ResolverFaultList : Prop :=
  ∀ (mode : Mode) (pc : Addr) (x y : Byte) (mem : Memory) (e : RaisedError),
    effectiveAddress mode pc x y mem = .error e ↔
      (e = .outOfRange 0x10000 ∧ mode ∈ [Mode.absolute, .absoluteX, .absoluteY, .indirect] ∧ pc = 0xFFFF#16) ∨
      (e = .outOfRange 0x10000 ∧ mode = .indirect ∧ pc ≠ 0xFFFF#16 ∧
        wordOf (Memory.read mem (pc + 1#16)) (Memory.read mem pc) = 0xFFFF#16) ∨
      (e = .invalidAddressingMode mode ∧ mode ∈ [Mode.accumulator, .noneAddressing])

/-- Byte accesses in a memory that has its canonical form: a write sets the byte at its address and no other, a second write to an address
makes the first as if it had not been, writes to two addresses may be exchanged, and writing a byte back changes nothing
(20_memory.md R31, R32). -/
def Obligations.ByteWriteLaws : Prop :=
  ∀ (m : Memory) (a b : Addr) (v w : Byte), Memory.wf m = true →
    (Memory.read (Memory.write m a v) b = if b = a then v else Memory.read m b) ∧
    Memory.write (Memory.write m a v) a w = Memory.write m a w ∧
    (a ≠ b → Memory.write (Memory.write m a v) b w = Memory.write (Memory.write m b w) a v) ∧
    Memory.write m a (Memory.read m a) = m

/-- Word accesses: little-endian, at any address but 0xFFFF, where they raise and write nothing; a word written is the word read
(20_memory.md R33 to R36; the test before both byte writes is decision D4). -/
def Obligations.WordAccess : Prop :=
  ∀ (m : Memory) (a v : Addr), Memory.wf m = true →
    (a = 0xFFFF#16 →
      Memory.readWord m a = .error (.outOfRange 0x10000) ∧ Memory.writeWord m a v = .error (.outOfRange 0x10000)) ∧
    (a ≠ 0xFFFF#16 →
      Memory.readWord m a =
        .ok (BitVec.ofNat 16 ((Memory.read m (a + 1#16)).toNat * 256 + (Memory.read m a).toNat)) ∧
      ∃ m', Memory.writeWord m a v = .ok m' ∧ Memory.wf m' = true ∧ Memory.readWord m' a = .ok v ∧
        (Memory.read m' a).toNat = v.toNat % 256 ∧ (Memory.read m' (a + 1#16)).toNat = v.toNat / 256 ∧
        ∀ b : Addr, b ≠ a → b ≠ a + 1#16 → Memory.read m' b = Memory.read m b)

/-- In the canonical form equal contents are equal data (20_memory.md section 1; the form is the model's, log 14). -/
def Obligations.CanonicalMemoryIsUnique : Prop :=
  ∀ m m' : Memory, Memory.wf m = true → Memory.wf m' = true →
    (∀ a : Addr, Memory.read m a = Memory.read m' a) → m = m'

/-- Every step keeps the invariant: memory canonical, and a latched error only in Halted. -/
def Obligations.StepKeepsInvariant : Prop :=
  ∀ (extra : CatalogExtra) (s t : State), Inv s → stepWith extra s = .next t → Inv t

/-- The state after reset meets the invariant. -/
def Obligations.ResetMeetsInvariant : Prop := Inv State.reset

/-- Every host command and host write keeps the invariant, `execute` and `run` for every value of `CATALOG_EXTRA`. -/
def Obligations.CommandsKeepInvariant : Prop :=
  ∀ s t : State, Inv s →
    (∀ program, hostLoad program s = .next t → Inv t) ∧
    (hostReset s = .next t → Inv t) ∧
    (∀ extra, hostExecuteWith extra s = .next t → Inv t) ∧
    (∀ extra program, hostRunWith extra program s = .next t → Inv t) ∧
    (∀ a v, hostPoke a v s = .next t → Inv t) ∧
    (∀ v, hostWriteA v s = .next t → Inv t) ∧ (∀ v, hostWriteX v s = .next t → Inv t) ∧
    (∀ v, hostWriteY v s = .next t → Inv t) ∧ (∀ v, hostWriteP v s = .next t → Inv t) ∧
    (∀ v, hostWritePc v s = .next t → Inv t)

/-- A step that completes moves PC by exactly the length of the instruction it ran; one that halts, by BRK or by a fault, leaves it at the
opcode or one past it: there is no second advance then, and no transfer of control (41_engine.md section 1 and R103). That the sum is
not taken mod 65536, and that a halted step can leave PC at the opcode, is decision D3 (log 7). -/
def Obligations.CompletedStepAdvancesByLength : Prop :=
  ∀ s t : State, step s = .next t →
    (t.phase = .running → ∃ d, lookup CatalogExtra.default (Memory.read s.mem s.pc) = some d ∧
      t.pc.toNat = s.pc.toNat + d.length) ∧
    (t.phase = .halted → t.pc = s.pc ∨ t.pc.toNat = s.pc.toNat + 1)

/-- No step writes Y or a reserved bit of P (10_state.md R13, R18), for any value of `CATALOG_EXTRA`. -/
def Obligations.StepKeepsYAndReservedBits : Prop :=
  ∀ (extra : CatalogExtra) (s t : State), stepWith extra s = .next t →
    t.y = s.y ∧ t.p &&& reservedBits = s.p &&& reservedBits

/-- A byte of memory changes in a step only if the opcode at PC is a STA's and the byte is at its effective address, as the resolver gives
it with PC at byte 1; it then holds A (46_sta.md R132, 20_memory.md R43). -/
def Obligations.OnlyStoresWriteMemory : Prop :=
  ∀ (s t : State) (b : Addr), Memory.wf s.mem = true → step s = .next t → Memory.read t.mem b ≠ Memory.read s.mem b →
    ∃ d, lookup CatalogExtra.default (Memory.read s.mem s.pc) = some d ∧ d.mnemonic = some .sta ∧
      ({ s with pc := s.pc + 1#16 } : State).effectiveAddress d.mode = .ok b ∧ Memory.read t.mem b = s.a

/-- A step from a running engine without an error ends the run well exactly when it ran BRK, which is never at 0xFFFF
(41_engine.md R99, 60_exceptions.md R161; decisions D31 and D3, log 7). -/
def Obligations.GoodEndExactlyAfterBrk : Prop :=
  ∀ s t : State, s.err = none → step s = .next t →
    (GoodEnd t ↔ Memory.read s.mem s.pc = 0x00#8 ∧ s.pc ≠ 0xFFFF#16)

/-- The errors that a step of the default machine can latch: OutOfRange with the value 0x10000, or the unrecognized byte at PC; never the
other two kinds (60_exceptions.md R151 to R155; decisions D3, D10, D14: logs 5, 7). -/
def Obligations.ErrorsAStepCanRaise : Prop :=
  ∀ (s t : State) (e : RaisedError), s.err = none → step s = .next t → t.err = some e →
    t.phase = .halted ∧ (e = .outOfRange 0x10000 ∨ e = .unrecognizedOpcode (Memory.read s.mem s.pc) s.pc)

/-- Self-modifying code: what a store puts at the next PC is the opcode of the next step, whatever byte it is (20_memory.md R44; decision
D24, log 19). The byte is in memory, and the next step is the pseudocode's on that memory; below 0xFFFF, a byte that is in no catalog is
reported with its address, and a byte that begins an instruction with what memory holds after it runs as that instruction. -/
def Obligations.StoreSeenByNextFetch : Prop :=
  ∀ (s t : State) (i : Instr), Memory.wf s.mem = true → i.mnemonic = .sta → exec i s = .next t → t.phase = .running →
    s.addressOf i.form = .ok t.pc →
    Memory.read t.mem t.pc = s.a ∧
    step t = .next (ruleStep CatalogExtra.default t) ∧
    (t.pc ≠ 0xFFFF#16 → lookup CatalogExtra.default s.a = none →
      step t = .next { t with pc := t.pc + 1#16, phase := .halted, err := some (.unrecognizedOpcode s.a t.pc) }) ∧
    (t.pc ≠ 0xFFFF#16 → ∀ (j : Instr) (rest : List Byte), decode (s.a :: (bytesAtPc t).tail) = .ok (j, rest) →
      step t = exec j { t with pc := t.pc + 1#16 })

/-- `reset` in every phase but Running: A, X, Y, P zero, PC the word at 0xFFFC, no error, memory kept, the phase Reset or still NotLoaded;
and on a fresh engine it gives the model's reset state (70_reset_and_hazards.md R180; decisions D11, D12, and logs 1, 9). -/
def Obligations.ResetCommandState : Prop :=
  (∀ s : State, s.phase ≠ .running → hostReset s = .next
    { a := 0x00#8, x := 0x00#8, y := 0x00#8, p := 0x00#8
      pc := wordOf (Memory.read s.mem 0xFFFD#16) (Memory.read s.mem 0xFFFC#16)
      mem := s.mem, phase := if s.phase = .notLoaded then .notLoaded else .reset, err := none }) ∧
  hostReset State.constructed = .next State.reset

/-- A second `reset` right after a `reset` changes nothing (70_reset_and_hazards.md R185). -/
def Obligations.ResetIsIdempotent : Prop :=
  ∀ s t : State, hostReset s = .next t → hostReset t = .next t

/-- `load`: a program that fits ends in Loaded with PC 0x8000, the registers kept, and memory changed only by the program's bytes and then
by the reset vector; a program that does not fit latches OutOfRange with its length and changes nothing else
(70_reset_and_hazards.md R181; decision D17, log 12). -/
def Obligations.LoadPlacesProgram : Prop :=
  ∀ (program : List Byte) (s : State), Memory.wf s.mem = true → s.phase ≠ .running →
    (32768 < program.length →
      hostLoad program s = .next { s with phase := .halted, err := some (.outOfRange program.length) }) ∧
    (program.length ≤ 32768 → ∃ m, hostLoad program s =
        .next { s with mem := m, pc := 0x8000#16, phase := .loaded, err := none } ∧
      Memory.wf m = true ∧ Memory.read m 0xFFFC#16 = 0x00#8 ∧ Memory.read m 0xFFFD#16 = 0x80#8 ∧
      ∀ b : Addr, b ≠ 0xFFFC#16 → b ≠ 0xFFFD#16 →
        Memory.read m b =
          if 0x8000 ≤ b.toNat then (program[b.toNat - 0x8000]?).getD (Memory.read s.mem b) else Memory.read s.mem b)

/-- Every `execute` ends, for every value of `CATALOG_EXTRA`: from every state in phase Reset the run makes `n` steps that leave it Running
in `u` and then one that halts it, at most 65536 less PC in all (32768 from 0x8000), and its end is the answer. Without an error before
it, that last step latches one or it is a BRK, the byte 0x00 below 0xFFFF (70_reset_and_hazards.md R188, 41_engine.md R99, R103). That the
PC does not wrap is decision D3 (log 7), the bound is that of R100 with decision D25 (log 11), and R99 carries decision D31 (log 7). -/
def Obligations.ExecuteAlwaysEnds : Prop :=
  ∀ (extra : CatalogExtra) (s : State), s.phase = .reset →
    ∃ (n : Nat) (u t : State), n + 1 ≤ 65536 - s.pc.toNat ∧
      stepsWhileRunning extra n { s with phase := .running } = .next u ∧ u.phase = .running ∧
      stepWith extra u = .next t ∧ hostExecuteWith extra s = .next t ∧ t.phase = .halted ∧
      (s.err = none →
        FaultedEnd t ∨ (GoodEnd t ∧ Memory.read u.mem u.pc = 0x00#8 ∧ u.pc ≠ 0xFFFF#16))

/-- `run` forgets the registers: its result depends on what the host left in memory and on the program, and on nothing else, where the
program fits and the engine has been idle, for every value of `CATALOG_EXTRA` (41_engine.md R98). -/
def Obligations.RunForgetsRegisters : Prop :=
  ∀ (extra : CatalogExtra) (program : List Byte) (s s' : State), program.length ≤ 32768 → s.phase ≠ .running → s'.phase ≠ .running →
    s.mem = s'.mem → hostRunWith extra program s = hostRunWith extra program s'

/-- Which commands a phase allows: nothing from the host while Running, neither a command nor a write, and `execute` in phase Reset alone; a
refused command has no next state (70_reset_and_hazards.md R183, 10_state.md R28; decisions D16, D18, log 12). -/
def Obligations.CommandsByPhase : Prop :=
  (∀ s : State, s.phase = .running →
    (∀ program, hostLoad program s = .refused (.command .load .running)) ∧
    hostReset s = .refused (.command .reset .running) ∧
    (∀ extra program, hostRunWith extra program s = .refused (.command .run .running)) ∧
    (∀ a v, hostPoke a v s = .refused (.command .poke .running)) ∧
    (∀ v, hostWriteA v s = .refused (.command .writeRegister .running)) ∧
    (∀ v, hostWriteX v s = .refused (.command .writeRegister .running)) ∧
    (∀ v, hostWriteY v s = .refused (.command .writeRegister .running)) ∧
    (∀ v, hostWriteP v s = .refused (.command .writeRegister .running)) ∧
    (∀ v, hostWritePc v s = .refused (.command .writeRegister .running))) ∧
  (∀ (extra : CatalogExtra) (s : State), s.phase ≠ .reset →
    hostExecuteWith extra s = .refused (.command .execute s.phase))

/-- The host's writes change what they name and nothing else, flags, phase and latch included (10_state.md R28; decision D18). -/
def Obligations.HostWritesChangeOneThing : Prop :=
  ∀ s : State, s.phase ≠ .running →
    (∀ a v, hostPoke a v s = .next { s with mem := Memory.write s.mem a v }) ∧
    (∀ v, hostWriteA v s = .next { s with a := v }) ∧ (∀ v, hostWriteX v s = .next { s with x := v }) ∧
    (∀ v, hostWriteY v s = .next { s with y := v }) ∧ (∀ v, hostWriteP v s = .next { s with p := v }) ∧
    (∀ v, hostWritePc v s = .next { s with pc := v })
end

