-- ==== Sys2Proof/Laws/Memory.lean ====
section
/-!
SUPPORT. The laws of the memory array: every write keeps the canonical form, a read after a write, and equal contents are equal data.
-/

namespace Sys2Proof.Machine.Memory

theorem wfFrom_cons {low b : Nat} {w : Byte} {m : Memory} :
    wfFrom low ((b, w) :: m) = true ↔
      low ≤ b ∧ b < Config.memSize ∧ w ≠ Config.memoryFill ∧ wfFrom (b + 1) m = true := by
  simp [wfFrom, and_assoc]

theorem wfFrom_mono {low low' : Nat} {m : Memory} (h : wfFrom low m = true) (hl : low' ≤ low) :
    wfFrom low' m = true := by
  cases m with
  | nil => rfl
  | cons c m =>
    obtain ⟨b, w⟩ := c
    rw [wfFrom_cons] at h ⊢
    exact ⟨hl.trans h.1, h.2⟩

/-- Below its first possible address a canonical memory reads as the fill value. -/
theorem readAt_below {low n : Nat} {m : Memory} (h : wfFrom low m = true) (hn : n < low) :
    readAt m n = Config.memoryFill := by
  induction m generalizing low with
  | nil => rfl
  | cons c m ih =>
    obtain ⟨b, w⟩ := c
    rw [wfFrom_cons] at h
    have hb : n ≠ b := by omega
    rw [readAt, if_neg hb]
    exact ih h.2.2.2 (by omega)

theorem writeAt_wfFrom {low n : Nat} {m : Memory} (v : Byte) (h : wfFrom low m = true) (hlow : low ≤ n)
    (hn : n < Config.memSize) : wfFrom low (writeAt m n v) = true := by
  induction m generalizing low with
  | nil =>
    rw [writeAt]
    split
    · rfl
    · rw [wfFrom_cons]; exact ⟨hlow, hn, ‹_›, rfl⟩
  | cons c m ih =>
    obtain ⟨b, w⟩ := c
    have h' := wfFrom_cons.mp h
    rw [writeAt]
    split
    · split
      · exact h
      · rw [wfFrom_cons, wfFrom_cons]; exact ⟨hlow, hn, ‹_›, by omega, h'.2⟩
    · split
      · split
        · exact wfFrom_mono h'.2.2.2 (by omega)
        · rw [wfFrom_cons]; subst n; exact ⟨hlow, hn, ‹_›, h'.2.2.2⟩
      · rw [wfFrom_cons]; exact ⟨h'.1, h'.2.1, h'.2.2.1, ih h'.2.2.2 (by omega)⟩

theorem readAt_writeAt_from {low : Nat} {m : Memory} (h : wfFrom low m = true) (n k : Nat) (v : Byte) :
    readAt (writeAt m n v) k = if k = n then v else readAt m k := by
  induction m generalizing low with
  | nil =>
    rw [writeAt]
    split
    · subst v; simp [readAt]
    · simp [readAt]
  | cons c m ih =>
    obtain ⟨b, w⟩ := c
    have h' := wfFrom_cons.mp h
    rw [writeAt]
    split
    · next hlt =>
      split
      · next hv =>
        split
        · next hk => rw [hk, hv, readAt, if_neg (by omega)]; exact readAt_below h'.2.2.2 (by omega)
        · rfl
      · rw [readAt]
    · split
      · next hnb =>
        subst hnb
        have hbelow := readAt_below h'.2.2.2 (Nat.lt_succ_self n)
        split
        · next hv =>
          split
          · next hk => rw [hk, hv, hbelow]
          · next hk => rw [readAt, if_neg hk]
        · rw [readAt, readAt]
          split <;> rfl
      · next hne =>
        rw [readAt, ih h'.2.2.2, readAt]
        split
        · next hkb => rw [if_neg (by omega)]
        · rfl

/-- The canonical form is kept by a byte write. -/
theorem write_wf {m : Memory} (h : wf m = true) (a : Addr) (v : Byte) : wf (write m a v) = true :=
  writeAt_wfFrom v h (Nat.zero_le _) a.isLt

/-- A read after a write: the value at the address written, the old byte everywhere else. -/
theorem read_write {m : Memory} (h : wf m = true) (a b : Addr) (v : Byte) :
    read (write m a v) b = if b = a then v else read m b := by
  simp only [read, write, readAt_writeAt_from h, BitVec.toNat_inj]

theorem read_write_same {m : Memory} (h : wf m = true) (a : Addr) (v : Byte) : read (write m a v) a = v := by
  simp [read_write h]

theorem read_write_other {m : Memory} (h : wf m = true) {a b : Addr} (v : Byte) (hb : b ≠ a) :
    read (write m a v) b = read m b := by
  simp [read_write h, hb]

/-- The canonical form is kept by a word write. -/
theorem writeWord_wf {m m' : Memory} (h : wf m = true) {a v : Addr} (hw : writeWord m a v = .ok m') : wf m' = true := by
  unfold writeWord at hw
  split at hw
  · cases hw
  · cases hw; exact write_wf (write_wf h _ _) _ _

/-- The canonical form is kept by a copy that stays inside the address space. -/
theorem writeBytes_wf {m : Memory} (h : wf m = true) (bytes : List Byte) (n : Nat)
    (hn : n + bytes.length ≤ Config.memSize) : wf (writeBytes m n bytes) = true := by
  induction bytes generalizing m n with
  | nil => exact h
  | cons b rest ih =>
    simp only [List.length_cons] at hn
    exact ih (writeAt_wfFrom b h (Nat.zero_le _) (by omega)) (n + 1) (by omega)

/-- What a copy leaves: the byte copied there, the old byte elsewhere. -/
theorem readAt_writeBytes {m : Memory} (h : wf m = true) (bytes : List Byte) (n k : Nat)
    (hn : n + bytes.length ≤ Config.memSize) :
    readAt (writeBytes m n bytes) k =
      if hk : n ≤ k ∧ k < n + bytes.length then bytes[k - n]'(by omega) else readAt m k := by
  induction bytes generalizing m n with
  | nil => rw [dif_neg (by simp)]; rfl
  | cons b rest ih =>
    simp only [List.length_cons] at hn ⊢
    have hwf : wf (writeAt m n b) = true := writeAt_wfFrom b h (Nat.zero_le _) (by omega)
    rw [writeBytes, ih hwf (n + 1) (by omega), readAt_writeAt_from h]
    by_cases hkn : k = n
    · subst hkn; simp
    · by_cases hk : n + 1 ≤ k ∧ k < n + 1 + rest.length
      · rw [dif_pos hk, dif_pos (by omega)]
        have : k - n = (k - (n + 1)) + 1 := by omega
        simp [this]
      · rw [dif_neg hk, dif_neg (by omega), if_neg hkn]

/-- The little-endian word read away from the top of the address space. -/
theorem readWord_ok (m : Memory) {a : Addr} (ha : a ≠ 0xFFFF#16) :
    readWord m a = .ok (wordOf (read m (a + 1#16)) (read m a)) := if_neg ha

theorem readWord_top (m : Memory) : readWord m 0xFFFF#16 = .error (.outOfRange 0x10000) := rfl

end Sys2Proof.Machine.Memory
end

