-- ==== Sys2Proof/Laws/State.lean ====
section
/-!
SUPPORT. One lemma per field per update of State, so that no later proof unfolds a record update.
-/

namespace Sys2Proof.Machine

variable (s : State)

@[simp] theorem setA_a (v : Byte) : (State.setA v s).a = v := rfl
@[simp] theorem setA_x (v : Byte) : (State.setA v s).x = s.x := rfl
@[simp] theorem setA_y (v : Byte) : (State.setA v s).y = s.y := rfl
@[simp] theorem setA_p (v : Byte) : (State.setA v s).p = s.p := rfl
@[simp] theorem setA_pc (v : Byte) : (State.setA v s).pc = s.pc := rfl
@[simp] theorem setA_mem (v : Byte) : (State.setA v s).mem = s.mem := rfl
@[simp] theorem setA_phase (v : Byte) : (State.setA v s).phase = s.phase := rfl
@[simp] theorem setA_err (v : Byte) : (State.setA v s).err = s.err := rfl

@[simp] theorem setX_a (v : Byte) : (State.setX v s).a = s.a := rfl
@[simp] theorem setX_x (v : Byte) : (State.setX v s).x = v := rfl
@[simp] theorem setX_y (v : Byte) : (State.setX v s).y = s.y := rfl
@[simp] theorem setX_p (v : Byte) : (State.setX v s).p = s.p := rfl
@[simp] theorem setX_pc (v : Byte) : (State.setX v s).pc = s.pc := rfl
@[simp] theorem setX_mem (v : Byte) : (State.setX v s).mem = s.mem := rfl
@[simp] theorem setX_phase (v : Byte) : (State.setX v s).phase = s.phase := rfl
@[simp] theorem setX_err (v : Byte) : (State.setX v s).err = s.err := rfl

@[simp] theorem setY_a (v : Byte) : (State.setY v s).a = s.a := rfl
@[simp] theorem setY_x (v : Byte) : (State.setY v s).x = s.x := rfl
@[simp] theorem setY_y (v : Byte) : (State.setY v s).y = v := rfl
@[simp] theorem setY_p (v : Byte) : (State.setY v s).p = s.p := rfl
@[simp] theorem setY_pc (v : Byte) : (State.setY v s).pc = s.pc := rfl
@[simp] theorem setY_mem (v : Byte) : (State.setY v s).mem = s.mem := rfl
@[simp] theorem setY_phase (v : Byte) : (State.setY v s).phase = s.phase := rfl
@[simp] theorem setY_err (v : Byte) : (State.setY v s).err = s.err := rfl

@[simp] theorem setP_a (v : Byte) : (State.setP v s).a = s.a := rfl
@[simp] theorem setP_x (v : Byte) : (State.setP v s).x = s.x := rfl
@[simp] theorem setP_y (v : Byte) : (State.setP v s).y = s.y := rfl
@[simp] theorem setP_p (v : Byte) : (State.setP v s).p = v := rfl
@[simp] theorem setP_pc (v : Byte) : (State.setP v s).pc = s.pc := rfl
@[simp] theorem setP_mem (v : Byte) : (State.setP v s).mem = s.mem := rfl
@[simp] theorem setP_phase (v : Byte) : (State.setP v s).phase = s.phase := rfl
@[simp] theorem setP_err (v : Byte) : (State.setP v s).err = s.err := rfl

@[simp] theorem setPc_a (v : Addr) : (State.setPc v s).a = s.a := rfl
@[simp] theorem setPc_x (v : Addr) : (State.setPc v s).x = s.x := rfl
@[simp] theorem setPc_y (v : Addr) : (State.setPc v s).y = s.y := rfl
@[simp] theorem setPc_p (v : Addr) : (State.setPc v s).p = s.p := rfl
@[simp] theorem setPc_pc (v : Addr) : (State.setPc v s).pc = v := rfl
@[simp] theorem setPc_mem (v : Addr) : (State.setPc v s).mem = s.mem := rfl
@[simp] theorem setPc_phase (v : Addr) : (State.setPc v s).phase = s.phase := rfl
@[simp] theorem setPc_err (v : Addr) : (State.setPc v s).err = s.err := rfl

@[simp] theorem store_a (ea : Addr) (v : Byte) : (State.store ea v s).a = s.a := rfl
@[simp] theorem store_x (ea : Addr) (v : Byte) : (State.store ea v s).x = s.x := rfl
@[simp] theorem store_y (ea : Addr) (v : Byte) : (State.store ea v s).y = s.y := rfl
@[simp] theorem store_p (ea : Addr) (v : Byte) : (State.store ea v s).p = s.p := rfl
@[simp] theorem store_pc (ea : Addr) (v : Byte) : (State.store ea v s).pc = s.pc := rfl
@[simp] theorem store_mem (ea : Addr) (v : Byte) : (State.store ea v s).mem = Memory.write s.mem ea v := rfl
@[simp] theorem store_phase (ea : Addr) (v : Byte) : (State.store ea v s).phase = s.phase := rfl
@[simp] theorem store_err (ea : Addr) (v : Byte) : (State.store ea v s).err = s.err := rfl

@[simp] theorem updateFlags_a (r : Byte) : (State.updateFlags r s).a = s.a := rfl
@[simp] theorem updateFlags_x (r : Byte) : (State.updateFlags r s).x = s.x := rfl
@[simp] theorem updateFlags_y (r : Byte) : (State.updateFlags r s).y = s.y := rfl
@[simp] theorem updateFlags_p (r : Byte) : (State.updateFlags r s).p = setZN s.p r := rfl
@[simp] theorem updateFlags_pc (r : Byte) : (State.updateFlags r s).pc = s.pc := rfl
@[simp] theorem updateFlags_mem (r : Byte) : (State.updateFlags r s).mem = s.mem := rfl
@[simp] theorem updateFlags_phase (r : Byte) : (State.updateFlags r s).phase = s.phase := rfl
@[simp] theorem updateFlags_err (r : Byte) : (State.updateFlags r s).err = s.err := rfl

@[simp] theorem raise_a (e : RaisedError) : (raise e s).a = s.a := rfl
@[simp] theorem raise_x (e : RaisedError) : (raise e s).x = s.x := rfl
@[simp] theorem raise_y (e : RaisedError) : (raise e s).y = s.y := rfl
@[simp] theorem raise_p (e : RaisedError) : (raise e s).p = s.p := rfl
@[simp] theorem raise_pc (e : RaisedError) : (raise e s).pc = s.pc := rfl
@[simp] theorem raise_mem (e : RaisedError) : (raise e s).mem = s.mem := rfl
@[simp] theorem raise_phase (e : RaisedError) : (raise e s).phase = .halted := rfl
@[simp] theorem raise_err (e : RaisedError) : (raise e s).err = some e := rfl

@[simp] theorem halt_a : (halt s).a = s.a := rfl
@[simp] theorem halt_x : (halt s).x = s.x := rfl
@[simp] theorem halt_y : (halt s).y = s.y := rfl
@[simp] theorem halt_p : (halt s).p = s.p := rfl
@[simp] theorem halt_pc : (halt s).pc = s.pc := rfl
@[simp] theorem halt_mem : (halt s).mem = s.mem := rfl
@[simp] theorem halt_phase : (halt s).phase = .halted := rfl
@[simp] theorem halt_err : (halt s).err = s.err := rfl

end Sys2Proof.Machine
end

