-- ==== Sys2Proof/Laws/Commands.lean ====
section
/-!
SUPPORT. What the host's commands can do.
-/

namespace Sys2Proof.Machine

/-- `load`: the fault, with nothing else changed, or the program and then the vector in memory. -/
theorem loadProgram_cases (program : List Byte) (s : State) :
    (Config.maxProgram < program.length ∧ loadProgram program s = raise (.outOfRange program.length) s) ∨
    (program.length ≤ Config.maxProgram ∧ loadProgram program s =
      { s with
        mem := Memory.write (Memory.write (Memory.writeBytes s.mem 0x8000 program) 0xFFFC#16 0x00#8) 0xFFFD#16 0x80#8
        pc := 0x8000#16
        err := none
        phase := .loaded }) := by
  unfold loadProgram
  by_cases h : Config.maxProgram < program.length
  · exact .inl ⟨h, if_pos h⟩
  · exact .inr ⟨Nat.le_of_not_lt h, by rw [if_neg h]; rfl⟩

/-- `reset` never faults: its vector is not at 0xFFFF. -/
theorem resetEngine_eq (s : State) : resetEngine s =
    { a := 0x00#8, x := 0x00#8, y := 0x00#8, p := 0x00#8
      pc := wordOf (Memory.read s.mem 0xFFFD#16) (Memory.read s.mem 0xFFFC#16)
      mem := s.mem
      phase := if s.phase = .notLoaded then .notLoaded else .reset
      err := none } := rfl

/-- A command that is not refused was not issued while Running, and has its effect. -/
theorem unlessRunning_next {name : CommandName} {act : State → State} {s t : State}
    (h : unlessRunning name act s = .next t) : s.phase ≠ .running ∧ t = act s := by
  unfold unlessRunning at h
  split at h
  · cases h
  · cases h
    exact ⟨‹_›, rfl⟩

/-- A run under a budget ends at once when the engine is not Running. -/
theorem stepsWhileRunning_idle {extra : CatalogExtra} {n : Nat} {s : State} (h : s.phase ≠ .running) :
    stepsWhileRunning extra n s = .next s := by
  cases n with
  | zero => rfl
  | succ n => rw [stepsWhileRunning, if_neg h]

/-- A run under a budget goes on from the next state. -/
theorem stepsWhileRunning_step {extra : CatalogExtra} {n : Nat} {s t : State} (h : s.phase = .running)
    (ht : stepWith extra s = .next t) : stepsWhileRunning extra (n + 1) s = stepsWhileRunning extra n t := by
  rw [stepsWhileRunning, if_pos h, ht]

end Sys2Proof.Machine
end

