-- ==== Sys2Proof/Laws/Decode.lean ====
section
/-!
SUPPORT. Facts about the catalog: where a lookup can land, and that a row dispatches to a format whose instructions have the row's
mnemonic, mode and length.
-/

namespace Sys2Proof

/-- A hit is a row of the catalog, or an entry of `CATALOG_EXTRA`, which has no mnemonic. -/
theorem lookup_cases {extra : CatalogExtra} {op : Byte} {d : Descriptor} (h : lookup extra op = some d) :
    (d ∈ catalog ∧ d.code = op) ∨ d.mnemonic = none := by
  have hcode : d.code = op := by simpa using List.find?_some h
  rcases List.mem_append.mp (List.mem_of_find?_eq_some h) with hrow | hextra
  · exact .inl ⟨hrow, hcode⟩
  · obtain ⟨e, -, rfl⟩ := List.mem_map.mp hextra
    exact .inr rfl

/-- With the default `CATALOG_EXTRA` a hit is a row of the catalog. -/
theorem lookup_default_mem {op : Byte} {d : Descriptor} (h : lookup CatalogExtra.default op = some d) :
    d ∈ catalog ∧ d.code = op := by
  refine ⟨?_, by simpa using List.find?_some h⟩
  simpa [CatalogExtra.rows, CatalogExtra.default, Config.catalogExtra] using List.mem_of_find?_eq_some h

/-- Every row of the catalog has an arm. -/
theorem dispatchFormat_isSome {d : Descriptor} (h : d ∈ catalog) : dispatchFormat d ≠ none := by
  have key : ∀ d ∈ catalog, (dispatchFormat d).isSome = true := by decide
  intro hn
  simpa [hn] using key d h

/-- An instruction fits a row: mnemonic, mode and length. -/
def FitsRow (d : Descriptor) (i : Instr) : Prop :=
  d.mnemonic = some i.mnemonic ∧ d.mode = i.form.mode ∧ d.length = i.length

/-- The format a row dispatches to: its instructions fit the row, and their operand is of the row's mode. -/
theorem format_of_row {d : Descriptor} {format : Format} (h : d ∈ catalog) (hf : dispatchFormat d = some format) :
    match format with
    | .f1 i => FitsRow d i ∧ d.length = 1 ∧ d.mode = .noneAddressing
    | .f2 build => (∀ d8, FitsRow d (build d8)) ∧ d.length = 2 ∧
        (d.mode = .immediate ∧ (∀ d8, (build d8).form = .immediate d8) ∨
          d.mode = .zeroPage ∧ (∀ d8, (build d8).form = .zeroPage d8) ∨
          d.mode = .zeroPageX ∧ (∀ d8, (build d8).form = .zeroPageX d8) ∨
          d.mode = .indirectX ∧ (∀ d8, (build d8).form = .indirectX d8) ∨
          d.mode = .indirectY ∧ (∀ d8, (build d8).form = .indirectY d8))
    | .f3 build => (∀ a16, FitsRow d (build a16)) ∧ d.length = 3 ∧
        (d.mode = .absolute ∧ (∀ a16, (build a16).form = .absolute a16) ∨
          d.mode = .absoluteX ∧ (∀ a16, (build a16).form = .absoluteX a16) ∨
          d.mode = .absoluteY ∧ (∀ a16, (build a16).form = .absoluteY a16)) := by
  simp only [catalog, List.cons_append, List.nil_append, List.mem_cons, List.not_mem_nil, or_false] at h
  rcases h with rfl | rfl | rfl | rfl | rfl | rfl | rfl | rfl | rfl | rfl | rfl | rfl | rfl | rfl | rfl | rfl | rfl | rfl |
    rfl | rfl | rfl | rfl | rfl <;> cases hf <;> first
    | exact ⟨⟨rfl, rfl, rfl⟩, rfl, rfl⟩
    | exact ⟨fun _ => ⟨rfl, rfl, rfl⟩, rfl, .inl ⟨rfl, fun _ => rfl⟩⟩
    | exact ⟨fun _ => ⟨rfl, rfl, rfl⟩, rfl, .inr (.inl ⟨rfl, fun _ => rfl⟩)⟩
    | exact ⟨fun _ => ⟨rfl, rfl, rfl⟩, rfl, .inr (.inr ⟨rfl, fun _ => rfl⟩)⟩
    | exact ⟨fun _ => ⟨rfl, rfl, rfl⟩, rfl, .inr (.inr (.inl ⟨rfl, fun _ => rfl⟩))⟩
    | exact ⟨fun _ => ⟨rfl, rfl, rfl⟩, rfl, .inr (.inr (.inr (.inl ⟨rfl, fun _ => rfl⟩)))⟩
    | exact ⟨fun _ => ⟨rfl, rfl, rfl⟩, rfl, .inr (.inr (.inr (.inr ⟨rfl, fun _ => rfl⟩)))⟩

end Sys2Proof
end

