-- ==== Sys2Proof/Laws/Flags.lean ====
section
/-!
SUPPORT. What SetZN does to each bit of the status byte (10_state.md R19).
-/

namespace Sys2Proof.Machine

/-- Every bit of the updated status byte. -/
theorem setZN_getLsbD (p r : Byte) (k : Nat) (hk : k < 8) :
    (setZN p r).getLsbD k =
      if k = 7 then r.getLsbD 7 else if k = 1 then decide (r = 0x00#8) else p.getLsbD k := by
  have h7D : ∀ j, j < 8 → (0x7D#8).getLsbD j = (!decide (j = 7) && !decide (j = 1)) := by decide
  unfold setZN
  simp only [BitVec.getLsbD_or, BitVec.getLsbD_and, h7D k hk]
  by_cases h7 : k = 7
  · subst h7; split <;> split <;> simp_all
  · by_cases h1 : k = 1
    · subst h1; split <;> split <;> simp_all
    · rw [if_neg h7, if_neg h1]
      interval_cases k <;> first | contradiction | (split <;> split <;> simp)

/-- The negative flag after an update. -/
theorem setZN_bit7 (p r : Byte) : (setZN p r).getLsbD 7 = r.getLsbD 7 := by
  rw [setZN_getLsbD p r 7 (by omega)]; rfl

/-- The zero flag after an update. -/
theorem setZN_bit1 (p r : Byte) : (setZN p r).getLsbD 1 = decide (r = 0x00#8) := by
  rw [setZN_getLsbD p r 1 (by omega)]; rfl

/-- A reserved bit after an update. -/
theorem setZN_reserved (p r : Byte) {k : Nat} (hk : k < 8) (h7 : k ≠ 7) (h1 : k ≠ 1) :
    (setZN p r).getLsbD k = p.getLsbD k := by
  rw [setZN_getLsbD p r k hk, if_neg h7, if_neg h1]

end Sys2Proof.Machine
end

