-- ==== Sys2Proof/Laws/Operands.lean ====
section
/-!
SUPPORT. The resolver: an operand assembled for a mode has that mode; a zero-page pointer never faults; and the value a load reads is the
byte at `EA(mode)`.
-/

namespace Sys2Proof.Machine

theorem assemble_mode {mode : Mode} {pc : Addr} {mem : Memory} {form : OperandForm}
    (h : assemble mode pc mem = .ok form) : form.mode = mode := by
  cases mode <;> simp only [assemble, Except.map] at h <;> first
    | (split at h <;> cases h; rfl)
    | (cases h; rfl)

/-- A zero-page address is not the top of the address space. -/
theorem zext16_ne_top (b : Byte) : zext16 b ≠ 0xFFFF#16 := by
  intro h
  have hb := b.isLt
  have := congrArg BitVec.toNat h
  simp [zext16] at this
  omega

/-- IndirectX and IndirectY cannot fault: the pointer lies in the zero page (40_addressing.md R79, R80). -/
theorem readWord_zeroPage (mem : Memory) (b : Byte) :
    Memory.readWord mem (zext16 b) = .ok (wordOf (Memory.read mem (zext16 b + 1#16)) (Memory.read mem (zext16 b))) :=
  Memory.readWord_ok mem (zext16_ne_top b)

/-- An assembled operand resolves to `EA(mode)`. -/
theorem effectiveAddress_of_assemble {mode : Mode} {s : State} {form : OperandForm}
    (h : assemble mode s.pc s.mem = .ok form) : s.effectiveAddress mode = s.addressOf form := by
  simp only [State.effectiveAddress, effectiveAddress, h, State.addressOf]

/-- The value a load reads through an assembled operand is the byte at `EA(mode)` (log 13). -/
theorem operandValue_of_assemble {mode : Mode} {s : State} {form : OperandForm}
    (h : assemble mode s.pc s.mem = .ok form) :
    s.operandValue form =
      match s.effectiveAddress mode with
      | .ok ea => .ok (Memory.read s.mem ea)
      | .error e => .error e := by
  rw [effectiveAddress_of_assemble h]
  cases mode <;> simp only [assemble, Except.map] at h <;> first
    | (split at h <;> cases h; rfl)
    | (cases h; rfl)

end Sys2Proof.Machine
end

