-- ==== Sys2Proof/Laws/Ops.lean ====
section
/-!
SUPPORT. What the two advances of the program counter can do (41_engine.md R92, R95, R96).
-/

namespace Sys2Proof.Machine

theorem advance_ok {n : Nat} {s : State} (h : s.pc.toNat + n ≤ 0xFFFF) :
    advance n s = .ok (s.setPc (s.pc + BitVec.ofNat 16 n)) := if_pos h

theorem advance_error {n : Nat} {s : State} (h : ¬ s.pc.toNat + n ≤ 0xFFFF) :
    advance n s = .error (.outOfRange (s.pc.toNat + n)) := if_neg h

/-- The PC after an advance that is made, as a number: nothing wrapped. -/
theorem advance_pc {n : Nat} {s s' : State} (h : advance n s = .ok s') : s'.pc.toNat = s.pc.toNat + n := by
  unfold advance at h
  split at h
  · cases h
    simp only [setPc_pc, BitVec.toNat_add, BitVec.toNat_ofNat]
    omega
  · cases h

/-- The second advance either completes the step with the PC moved and all else kept, or latches OutOfRange with all kept. -/
theorem secondAdvance_cases {len : Nat} {s : State} :
    (s.pc.toNat + (len - 1) ≤ 0xFFFF ∧ secondAdvance len s = .next (s.setPc (s.pc + BitVec.ofNat 16 (len - 1)))) ∨
    (0xFFFF < s.pc.toNat + (len - 1) ∧
      secondAdvance len s = .next (raise (.outOfRange (s.pc.toNat + (len - 1))) s)) := by
  unfold secondAdvance
  by_cases h : s.pc.toNat + (len - 1) ≤ 0xFFFF
  · exact .inl ⟨h, by rw [advance_ok h]⟩
  · exact .inr ⟨by omega, by rw [advance_error h]⟩

theorem secondAdvance_ok {len : Nat} {s : State} (h : s.pc.toNat + (len - 1) ≤ 0xFFFF) :
    secondAdvance len s = .next (s.setPc (s.pc + BitVec.ofNat 16 (len - 1))) := by
  rw [secondAdvance, advance_ok h]

theorem secondAdvance_error {len : Nat} {s : State} (h : 0xFFFF < s.pc.toNat + (len - 1)) :
    secondAdvance len s = .next (raise (.outOfRange (s.pc.toNat + (len - 1))) s) := by
  rw [secondAdvance, advance_error (by omega)]

/-- A one-byte instruction's second advance adds nothing and cannot fault. -/
theorem secondAdvance_one (s : State) : secondAdvance 1 s = .next s := by
  rw [secondAdvance_ok (by have := s.pc.isLt; omega)]
  simp [State.setPc]

end Sys2Proof.Machine
end

