-- ==== Sys2Proof/Laws/Transfer.lean ====
section
/-!
SUPPORT. What the shared arms can do: each answers a next state, in one of the cases its lemma lists.
-/

namespace Sys2Proof.Machine

/-- A load: a resolver fault before any write, or the register and the flags written and then the second advance. -/
theorem loadRegister_cases (setReg : Byte → State → State) (form : OperandForm) (s : State) :
    (∃ e, s.operandValue form = .error e ∧ loadRegister setReg form s = .next (raise e s)) ∨
    (∃ v, s.operandValue form = .ok v ∧
      loadRegister setReg form s = secondAdvance form.mode.length ((setReg v s).updateFlags v)) := by
  unfold loadRegister
  cases h : s.operandValue form with
  | error e => exact .inl ⟨e, rfl, rfl⟩
  | ok v => exact .inr ⟨v, rfl, rfl⟩

/-- A store: a resolver fault before the write, or A written at the effective address and then the second advance. -/
theorem storeAccumulator_cases (form : OperandForm) (s : State) :
    (∃ e, s.addressOf form = .error e ∧ storeAccumulator form s = .next (raise e s)) ∨
    (∃ ea, s.addressOf form = .ok ea ∧
      storeAccumulator form s = secondAdvance form.mode.length (s.store ea s.a)) := by
  unfold storeAccumulator
  cases h : s.addressOf form with
  | error e => exact .inl ⟨e, rfl, rfl⟩
  | ok ea => exact .inr ⟨ea, rfl, rfl⟩

/-- INX and TAX always complete. -/
theorem writeIndexX_eq (v : Byte) (s : State) : writeIndexX v s = .next ((s.setX v).updateFlags v) :=
  secondAdvance_one _

end Sys2Proof.Machine
end

