-- ==== Sys2Proof/Laws/Exec.lean ====
section
/-!
SUPPORT. What an instruction can do, said once: BRK halts; every other instruction writes what its family writes and makes the second
advance. An instruction's own operand never faults: the operand word has been read before (log 13), and zero-page pointers cannot.
-/

namespace Sys2Proof.Machine

/-- The operand of a load or a store resolves. -/
theorem addressOf_instr (i : Instr) (s : State) (h : i.form ≠ .noneAddressing) : ∃ ea, s.addressOf i.form = .ok ea := by
  cases i <;> first
    | exact absurd rfl h
    | exact ⟨_, rfl⟩
    | exact ⟨_, readWord_zeroPage _ _⟩

/-- The byte a load reads: the immediate byte, or the byte at the operand's address. -/
theorem operandValue_instr (i : Instr) (s : State) (h : i.form ≠ .noneAddressing) :
    ∃ v, s.operandValue i.form = .ok v := by
  obtain ⟨ea, hea⟩ := addressOf_instr i s h
  cases i <;> first
    | exact absurd rfl h
    | exact ⟨_, rfl⟩
    | exact ⟨Memory.read s.mem ea, by simp only [Instr.form] at hea; simp only [State.operandValue, Instr.form, hea]⟩

theorem exec_lda {i : Instr} (h : i.mnemonic = .lda) (s : State) : exec i s = loadRegister State.setA i.form s := by
  cases i <;> first | (cases h; done) | rfl

theorem exec_ldx {i : Instr} (h : i.mnemonic = .ldx) (s : State) : exec i s = loadRegister State.setX i.form s := by
  cases i <;> first | (cases h; done) | rfl

theorem exec_sta {i : Instr} (h : i.mnemonic = .sta) (s : State) : exec i s = storeAccumulator i.form s := by
  cases i <;> first | (cases h; done) | rfl

theorem form_ne_none {i : Instr} (h : i.mnemonic = .lda ∨ i.mnemonic = .ldx ∨ i.mnemonic = .sta) :
    i.form ≠ .noneAddressing := by
  cases i <;> simp_all [Instr.form, Instr.mnemonic]

/-- What the operation of an instruction other than BRK has written when its second advance begins: LDA the accumulator, INX, LDX and
TAX register X, each with the flags; STA one byte. -/
def Wrote (i : Instr) (s w : State) : Prop :=
  (i.mnemonic = .lda ∧ ∃ v, s.operandValue i.form = .ok v ∧ w = (s.setA v).updateFlags v) ∨
  (i.mnemonic = .ldx ∧ ∃ v, s.operandValue i.form = .ok v ∧ w = (s.setX v).updateFlags v) ∨
  (i = .inx ∧ w = (s.setX (s.x + 1#8)).updateFlags (s.x + 1#8)) ∨
  (i = .tax ∧ w = (s.setX s.a).updateFlags s.a) ∨
  (i.mnemonic = .sta ∧ ∃ ea, s.addressOf i.form = .ok ea ∧ w = s.store ea s.a)

/-- Every instruction answers: BRK by halting, the others by their writes and the second advance. -/
theorem exec_cases (i : Instr) (s : State) :
    (i = .brk ∧ exec i s = .next (halt s)) ∨ (∃ w, Wrote i s w ∧ exec i s = secondAdvance i.length w) := by
  cases hm : i.mnemonic with
  | brk => left; cases i <;> first | (cases hm; done) | exact ⟨rfl, rfl⟩
  | inx => right; cases i <;> first | (cases hm; done) | exact ⟨_, .inr (.inr (.inl ⟨rfl, rfl⟩)), rfl⟩
  | tax => right; cases i <;> first | (cases hm; done) | exact ⟨_, .inr (.inr (.inr (.inl ⟨rfl, rfl⟩))), rfl⟩
  | lda =>
    right
    obtain ⟨v, hv⟩ := operandValue_instr i s (form_ne_none (.inl hm))
    exact ⟨_, .inl ⟨hm, v, hv, rfl⟩, by rw [exec_lda hm, loadRegister, hv]; rfl⟩
  | ldx =>
    right
    obtain ⟨v, hv⟩ := operandValue_instr i s (form_ne_none (.inr (.inl hm)))
    exact ⟨_, .inr (.inl ⟨hm, v, hv, rfl⟩), by rw [exec_ldx hm, loadRegister, hv]; rfl⟩
  | sta =>
    right
    obtain ⟨ea, hea⟩ := addressOf_instr i s (form_ne_none (.inr (.inr hm)))
    exact ⟨_, .inr (.inr (.inr (.inr ⟨hm, ea, hea, rfl⟩))), by rw [exec_sta hm, storeAccumulator, hea]; rfl⟩

/-- No operation touches Y, PC, the phase or the latch. -/
theorem Wrote.keeps {i : Instr} {s w : State} (h : Wrote i s w) :
    w.y = s.y ∧ w.pc = s.pc ∧ w.phase = s.phase ∧ w.err = s.err := by
  rcases h with ⟨-, v, -, rfl⟩ | ⟨-, v, -, rfl⟩ | ⟨-, rfl⟩ | ⟨-, rfl⟩ | ⟨-, ea, -, rfl⟩ <;> simp

/-- Memory after an operation: kept, or one byte written. -/
theorem Wrote.memory {i : Instr} {s w : State} (h : Wrote i s w) :
    w.mem = s.mem ∨ (i.mnemonic = .sta ∧ ∃ ea, s.addressOf i.form = .ok ea ∧ w.mem = Memory.write s.mem ea s.a) := by
  rcases h with ⟨-, v, -, rfl⟩ | ⟨-, v, -, rfl⟩ | ⟨-, rfl⟩ | ⟨-, rfl⟩ | ⟨hm, ea, hea, rfl⟩
  · exact .inl rfl
  · exact .inl rfl
  · exact .inl rfl
  · exact .inl rfl
  · exact .inr ⟨hm, ea, hea, rfl⟩

end Sys2Proof.Machine
end

