-- ==== Sys2Proof/Laws/PerInstr.lean ====
section
/-!
SUPPORT. CatalogRow: an instruction's encoding agrees with one row of the catalog in its code, mnemonic, mode and length
(30_encoding.md R52, R54).
-/

namespace Sys2Proof.Laws.CatalogRow

/-- The instruction's first byte is the code of a catalog row with its mnemonic, its mode and the length of its encoding and of its operand's mode. -/
def Statement (i : Instr) : Prop :=
  ∃ d ∈ catalog, (encode i).head? = some d.code ∧ d.mnemonic = some i.mnemonic ∧ d.mode = i.form.mode ∧
    d.length = (encode i).length ∧ (encode i).length = i.length

theorem brk : Statement .brk :=
  ⟨⟨0x00#8, some .brk, .noneAddressing, 1⟩, by decide, rfl, rfl, rfl, rfl, rfl⟩

theorem inx : Statement .inx :=
  ⟨⟨0xE8#8, some .inx, .noneAddressing, 1⟩, by decide, rfl, rfl, rfl, rfl, rfl⟩

theorem ldaImmediate (d8 : Byte) : Statement (.ldaImmediate d8) :=
  ⟨⟨0xA9#8, some .lda, .immediate, 2⟩, by decide, rfl, rfl, rfl, rfl, rfl⟩

theorem ldaZeroPage (d8 : Byte) : Statement (.ldaZeroPage d8) :=
  ⟨⟨0xA5#8, some .lda, .zeroPage, 2⟩, by decide, rfl, rfl, rfl, rfl, rfl⟩

theorem ldaZeroPageX (d8 : Byte) : Statement (.ldaZeroPageX d8) :=
  ⟨⟨0xB5#8, some .lda, .zeroPageX, 2⟩, by decide, rfl, rfl, rfl, rfl, rfl⟩

theorem ldaAbsolute (a16 : Addr) : Statement (.ldaAbsolute a16) :=
  ⟨⟨0xAD#8, some .lda, .absolute, 3⟩, by decide, rfl, rfl, rfl, rfl, rfl⟩

theorem ldaAbsoluteX (a16 : Addr) : Statement (.ldaAbsoluteX a16) :=
  ⟨⟨0xBD#8, some .lda, .absoluteX, 3⟩, by decide, rfl, rfl, rfl, rfl, rfl⟩

theorem ldaAbsoluteY (a16 : Addr) : Statement (.ldaAbsoluteY a16) :=
  ⟨⟨0xB9#8, some .lda, .absoluteY, 3⟩, by decide, rfl, rfl, rfl, rfl, rfl⟩

theorem ldaIndirectX (d8 : Byte) : Statement (.ldaIndirectX d8) :=
  ⟨⟨0xA1#8, some .lda, .indirectX, 2⟩, by decide, rfl, rfl, rfl, rfl, rfl⟩

theorem ldaIndirectY (d8 : Byte) : Statement (.ldaIndirectY d8) :=
  ⟨⟨0xB1#8, some .lda, .indirectY, 2⟩, by decide, rfl, rfl, rfl, rfl, rfl⟩

theorem ldxImmediate (d8 : Byte) : Statement (.ldxImmediate d8) :=
  ⟨⟨0xA2#8, some .ldx, .immediate, 2⟩, by decide, rfl, rfl, rfl, rfl, rfl⟩

theorem ldxZeroPage (d8 : Byte) : Statement (.ldxZeroPage d8) :=
  ⟨⟨0xA6#8, some .ldx, .zeroPage, 2⟩, by decide, rfl, rfl, rfl, rfl, rfl⟩

theorem ldxZeroPageX (d8 : Byte) : Statement (.ldxZeroPageX d8) :=
  ⟨⟨0xB6#8, some .ldx, .zeroPageX, 2⟩, by decide, rfl, rfl, rfl, rfl, rfl⟩

theorem ldxAbsolute (a16 : Addr) : Statement (.ldxAbsolute a16) :=
  ⟨⟨0xAE#8, some .ldx, .absolute, 3⟩, by decide, rfl, rfl, rfl, rfl, rfl⟩

theorem ldxAbsoluteY (a16 : Addr) : Statement (.ldxAbsoluteY a16) :=
  ⟨⟨0xBE#8, some .ldx, .absoluteY, 3⟩, by decide, rfl, rfl, rfl, rfl, rfl⟩

theorem staZeroPage (d8 : Byte) : Statement (.staZeroPage d8) :=
  ⟨⟨0x85#8, some .sta, .zeroPage, 2⟩, by decide, rfl, rfl, rfl, rfl, rfl⟩

theorem staZeroPageX (d8 : Byte) : Statement (.staZeroPageX d8) :=
  ⟨⟨0x95#8, some .sta, .zeroPageX, 2⟩, by decide, rfl, rfl, rfl, rfl, rfl⟩

theorem staAbsolute (a16 : Addr) : Statement (.staAbsolute a16) :=
  ⟨⟨0x8D#8, some .sta, .absolute, 3⟩, by decide, rfl, rfl, rfl, rfl, rfl⟩

theorem staAbsoluteX (a16 : Addr) : Statement (.staAbsoluteX a16) :=
  ⟨⟨0x9D#8, some .sta, .absoluteX, 3⟩, by decide, rfl, rfl, rfl, rfl, rfl⟩

theorem staAbsoluteY (a16 : Addr) : Statement (.staAbsoluteY a16) :=
  ⟨⟨0x99#8, some .sta, .absoluteY, 3⟩, by decide, rfl, rfl, rfl, rfl, rfl⟩

theorem staIndirectX (d8 : Byte) : Statement (.staIndirectX d8) :=
  ⟨⟨0x81#8, some .sta, .indirectX, 2⟩, by decide, rfl, rfl, rfl, rfl, rfl⟩

theorem staIndirectY (d8 : Byte) : Statement (.staIndirectY d8) :=
  ⟨⟨0x91#8, some .sta, .indirectY, 2⟩, by decide, rfl, rfl, rfl, rfl, rfl⟩

theorem tax : Statement .tax :=
  ⟨⟨0xAA#8, some .tax, .noneAddressing, 1⟩, by decide, rfl, rfl, rfl, rfl, rfl⟩

end Sys2Proof.Laws.CatalogRow
end

