-- ==== Sys2Proof/Laws/Step.lean ====
section
/-!
SUPPORT. What the first half of a step can come to, and what a step can do, said once.
-/

namespace Sys2Proof.Machine

theorem advance_one {s : State} (h : s.pc ≠ 0xFFFF#16) : advance 1 s = .ok { s with pc := s.pc + 1#16 } := by
  have hne : s.pc.toNat ≠ 0xFFFF := fun e => h (BitVec.eq_of_toNat_eq e)
  exact advance_ok (by have := s.pc.isLt; omega)

/-- The PC after the first advance, as a number. -/
theorem pc_add_one {s : State} (h : s.pc ≠ 0xFFFF#16) : (s.pc + 1#16).toNat = s.pc.toNat + 1 :=
  advance_pc (advance_one h)

/-- The first half of a step: the top of memory, a byte that is not catalogued, a byte without an arm, or an opcode whose operand is
then fetched. -/
theorem fetch_cases (extra : CatalogExtra) (s : State) :
    (s.pc = 0xFFFF#16 ∧ fetch extra s = .raised (raise (.outOfRange 0x10000) s)) ∨
    (s.pc ≠ 0xFFFF#16 ∧ lookup extra (Memory.read s.mem s.pc) = none ∧
      fetch extra s = .raised
        (raise (.unrecognizedOpcode (Memory.read s.mem s.pc) s.pc) { s with pc := s.pc + 1#16 })) ∨
    (∃ d, s.pc ≠ 0xFFFF#16 ∧ lookup extra (Memory.read s.mem s.pc) = some d ∧ dispatchFormat d = none ∧
      fetch extra s = .raised
        (raise (.notImplemented (Memory.read s.mem s.pc) s.pc) { s with pc := s.pc + 1#16 })) ∨
    (∃ d format, s.pc ≠ 0xFFFF#16 ∧ lookup extra (Memory.read s.mem s.pc) = some d ∧
      dispatchFormat d = some format ∧ fetch extra s = fetchOperand format { s with pc := s.pc + 1#16 }) := by
  by_cases hpc : s.pc = 0xFFFF#16
  · left
    refine ⟨hpc, ?_⟩
    have hf : advance 1 s = .error (.outOfRange 0x10000) := by simp [advance, hpc]
    simp only [fetch, hf]
  · right
    have ha := advance_one hpc
    cases hl : lookup extra (Memory.read s.mem s.pc) with
    | none => exact .inl ⟨hpc, rfl, by simp only [fetch, ha, hl]⟩
    | some d =>
      right
      cases hd : dispatchFormat d with
      | none => exact .inl ⟨d, hpc, rfl, hd, by simp only [fetch, ha, hl, hd]⟩
      | some format => exact .inr ⟨d, format, hpc, rfl, hd, by simp only [fetch, ha, hl, hd]⟩

/-- The operand fetch of a catalog row: an instruction that fits the row, whose operand is the one the resolver assembles; or, for the three
byte rows at the top of memory, the operand word's fault. -/
theorem fetchOperand_cases {d : Descriptor} {format : Format} (h : d ∈ catalog) (hf : dispatchFormat d = some format)
    (s : State) :
    (∃ i, FitsRow d i ∧ assemble d.mode s.pc s.mem = .ok i.form ∧ (d.length = 3 → s.pc ≠ 0xFFFF#16) ∧
      fetchOperand format s = .instr i s) ∨
    (d.length = 3 ∧ s.pc = 0xFFFF#16 ∧ assemble d.mode s.pc s.mem = .error (.outOfRange 0x10000) ∧
      fetchOperand format s = .raised (raise (.outOfRange 0x10000) s)) := by
  have hrow := format_of_row h hf
  cases format with
  | f1 i =>
    obtain ⟨hfit, hlen, hmode⟩ := hrow
    refine .inl ⟨i, hfit, ?_, by omega, rfl⟩
    have hform : i.form = .noneAddressing := by
      have := hfit.2.1.symm.trans hmode
      cases i <;> first | rfl | cases this
    rw [hmode, hform]
    rfl
  | f2 build =>
    obtain ⟨hfit, hlen, hmode⟩ := hrow
    refine .inl ⟨_, hfit (Memory.read s.mem s.pc), ?_, by omega, rfl⟩
    rcases hmode with ⟨hm, hform⟩ | ⟨hm, hform⟩ | ⟨hm, hform⟩ | ⟨hm, hform⟩ | ⟨hm, hform⟩ <;> rw [hm, hform] <;> rfl
  | f3 build =>
    obtain ⟨hfit, hlen, hmode⟩ := hrow
    by_cases htop : s.pc = 0xFFFF#16
    · right
      have hw : Memory.readWord s.mem s.pc = .error (.outOfRange 0x10000) := by rw [htop]; rfl
      refine ⟨hlen, htop, ?_, by simp only [fetchOperand, hw]⟩
      rcases hmode with ⟨hm, -⟩ | ⟨hm, -⟩ | ⟨hm, -⟩ <;> rw [hm] <;> simp only [assemble, hw, Except.map]
    · left
      have hw := Memory.readWord_ok s.mem htop
      refine ⟨_, hfit _, ?_, fun _ => htop, by simp only [fetchOperand, hw]; rfl⟩
      rcases hmode with ⟨hm, hform⟩ | ⟨hm, hform⟩ | ⟨hm, hform⟩ <;> rw [hm, hform] <;>
        simp only [assemble, hw, Except.map]

/-- A step in phase Running. -/
theorem stepWith_running {extra : CatalogExtra} {s : State} (h : s.phase = .running) :
    stepWith extra s = match fetch extra s with
      | .instr i s1 => exec i s1
      | .raised s1 => .next s1 := by
  unfold stepWith
  cases s
  cases h
  rfl

/-- A step that answers a next state was in phase Running, and either one of the four faults of the first half ended it, or it ran an
instruction that fits the row its opcode has, with the operand the resolver assembles, from PC + 1. -/
theorem stepWith_cases {extra : CatalogExtra} {s t : State} (h : stepWith extra s = .next t) :
    s.phase = .running ∧
    ((s.pc = 0xFFFF#16 ∧ t = raise (.outOfRange 0x10000) s) ∨
    (s.pc ≠ 0xFFFF#16 ∧ lookup extra (Memory.read s.mem s.pc) = none ∧
      t = raise (.unrecognizedOpcode (Memory.read s.mem s.pc) s.pc) { s with pc := s.pc + 1#16 }) ∨
    (∃ d, s.pc ≠ 0xFFFF#16 ∧ lookup extra (Memory.read s.mem s.pc) = some d ∧ d.mnemonic = none ∧
      t = raise (.notImplemented (Memory.read s.mem s.pc) s.pc) { s with pc := s.pc + 1#16 }) ∨
    (∃ d, s.pc ≠ 0xFFFF#16 ∧ lookup extra (Memory.read s.mem s.pc) = some d ∧ d ∈ catalog ∧
      d.code = Memory.read s.mem s.pc ∧ d.length = 3 ∧ s.pc + 1#16 = 0xFFFF#16 ∧
      t = raise (.outOfRange 0x10000) { s with pc := s.pc + 1#16 }) ∨
    (∃ d i, s.pc ≠ 0xFFFF#16 ∧ lookup extra (Memory.read s.mem s.pc) = some d ∧ d ∈ catalog ∧
      d.code = Memory.read s.mem s.pc ∧ FitsRow d i ∧ (d.length = 3 → s.pc + 1#16 ≠ 0xFFFF#16) ∧
      assemble d.mode (s.pc + 1#16) s.mem = .ok i.form ∧ exec i { s with pc := s.pc + 1#16 } = .next t)) := by
  by_cases hr : s.phase = .running
  · refine ⟨hr, ?_⟩
    rw [stepWith_running hr] at h
    rcases fetch_cases extra s with ⟨hpc, hf⟩ | ⟨hpc, hl, hf⟩ | ⟨d, hpc, hl, hd, hf⟩ | ⟨d, format, hpc, hl, hd, hf⟩ <;>
      rw [hf] at h
    · cases h
      exact .inl ⟨hpc, rfl⟩
    · cases h
      exact .inr (.inl ⟨hpc, hl, rfl⟩)
    · cases h
      refine .inr (.inr (.inl ⟨d, hpc, hl, ?_, rfl⟩))
      exact (lookup_cases hl).resolve_left fun hrow => dispatchFormat_isSome hrow.1 hd
    · obtain ⟨hrow, hcode⟩ := (lookup_cases hl).resolve_right fun hn => by simp [dispatchFormat, hn] at hd
      rcases fetchOperand_cases hrow hd { s with pc := s.pc + 1#16 } with ⟨i, hfit, has, htop, hi⟩ | ⟨hlen, htop, -, hi⟩ <;>
        rw [hi] at h
      · exact .inr (.inr (.inr (.inr ⟨d, i, hpc, hl, hrow, hcode, hfit, htop, has, h⟩)))
      · cases h
        exact .inr (.inr (.inr (.inl ⟨d, hpc, hl, hrow, hcode, hlen, htop, rfl⟩)))
  · unfold stepWith at h
    split at h <;> contradiction

end Sys2Proof.Machine
end

