-- ==== Sys2Proof/Tests/Slice0.lean ====
section
/-!
SUPPORT. The model's own tests: the spec's worked examples and vectors (each test names its rule or vector of 95_test_vectors.md), words
written out from the encodings, ill-formed terms that the checks refuse, and for every statement with hypotheses a witness that meets them.
-/

namespace Sys2Proof.Tests

open Sys2Proof.Machine

/-- A running engine with bytes at `pc` and other bytes poked before. -/
def cpu (pc : Addr) (bytes : List Byte) (poked : List (Addr × Byte)) : State :=
  placeAtPc bytes { State.reset with pc := pc, mem := poked.foldl (fun m c => Memory.write m c.1 c.2) [] }

/-- The next state of an outcome, if there is one. -/
def after : Result → Option State
  | .next t => some t
  | _ => none

/-- What most tests look at: A, X, P and PC. -/
def regs (t : State) : Byte × Byte × Byte × Addr := (t.a, t.x, t.p, t.pc)

/-- The value of `CATALOG_EXTRA` in 95_test_vectors.md section 2.8. -/
def extraEA : CatalogExtra := ⟨[⟨0xEA#8, .noneAddressing, 1⟩], by decide⟩

/-! ## Well-formedness -/

theorem test_catalog_wf : catalogWf catalog = true := by decide

/-- 30_encoding.md R55: a duplicate byte is refused. -/
theorem test_catalog_refuses_duplicate : catalogWf [⟨0x95#8, some .sta, .zeroPageX, 2⟩, ⟨0x95#8, some .sta, .absoluteX, 3⟩] = false := by
  decide

/-- 30_encoding.md R52: a length that does not fit the mode is refused. -/
theorem test_catalog_refuses_length : catalogWf [⟨0xAD#8, some .lda, .absolute, 2⟩] = false := by decide

/-- 95_test_vectors.md section 2.8: the example value of `CATALOG_EXTRA`. -/
theorem test_extra_wf : CatalogExtra.ofEntries [⟨0xEA#8, .noneAddressing, 1⟩] = some extraEA := by decide

/-- 30_encoding.md R55, 00_scope.md R4: construction refuses what is not disjoint from the catalog, 0xFF, a duplicate, a wrong length. -/
theorem test_extra_refuses : ∀ extra ∈ [[⟨0x00#8, .noneAddressing, 1⟩], [⟨0xFF#8, .noneAddressing, 1⟩],
    [⟨0xEA#8, .noneAddressing, 1⟩, ⟨0xEA#8, .absolute, 3⟩], [⟨0xEA#8, .absolute, 1⟩]],
    CatalogExtra.ofEntries extra = none := by decide

/-- 70_reset_and_hazards.md R181: 32769 bytes do not fit. -/
theorem test_program_refuses : programWf (List.replicate 32769 0xEA#8) = false ∧ programWf [] = true := by
  unfold programWf
  rw [List.length_replicate]
  decide

/-! ## Decoding: words written out bit by bit from opcode_table.json and 30_encoding.md R51 -/

theorem test_decode_f1 : decode [0b00000000#8] = .ok (.brk, []) ∧ decode [0b11101000#8] = .ok (.inx, []) ∧
    decode [0b10101010#8] = .ok (.tax, []) := ⟨rfl, rfl, rfl⟩

theorem test_decode_lda : decode [0b10101001#8, 0xC0#8] = .ok (.ldaImmediate 0xC0#8, []) ∧
    decode [0b10100101#8, 0x10#8] = .ok (.ldaZeroPage 0x10#8, []) ∧
    decode [0b10110101#8, 0x80#8] = .ok (.ldaZeroPageX 0x80#8, []) ∧
    decode [0b10101101#8, 0x34#8, 0x12#8] = .ok (.ldaAbsolute 0x1234#16, []) ∧
    decode [0b10111101#8, 0xFE#8, 0xFF#8] = .ok (.ldaAbsoluteX 0xFFFE#16, []) ∧
    decode [0b10111001#8, 0x00#8, 0x20#8] = .ok (.ldaAbsoluteY 0x2000#16, []) ∧
    decode [0b10100001#8, 0x20#8] = .ok (.ldaIndirectX 0x20#8, []) ∧
    decode [0b10110001#8, 0x20#8] = .ok (.ldaIndirectY 0x20#8, []) := ⟨rfl, rfl, rfl, rfl, rfl, rfl, rfl, rfl⟩

theorem test_decode_ldx : decode [0b10100010#8, 0x07#8] = .ok (.ldxImmediate 0x07#8, []) ∧
    decode [0b10100110#8, 0x10#8] = .ok (.ldxZeroPage 0x10#8, []) ∧
    decode [0b10110110#8, 0x10#8] = .ok (.ldxZeroPageX 0x10#8, []) ∧
    decode [0b10101110#8, 0x00#8, 0x02#8] = .ok (.ldxAbsolute 0x0200#16, []) ∧
    decode [0b10111110#8, 0xF0#8, 0x02#8] = .ok (.ldxAbsoluteY 0x02F0#16, []) := ⟨rfl, rfl, rfl, rfl, rfl⟩

theorem test_decode_sta : decode [0b10000101#8, 0x10#8] = .ok (.staZeroPage 0x10#8, []) ∧
    decode [0b10010101#8, 0x20#8] = .ok (.staZeroPageX 0x20#8, []) ∧
    decode [0b10001101#8, 0x00#8, 0x02#8] = .ok (.staAbsolute 0x0200#16, []) ∧
    decode [0b10011101#8, 0xFF#8, 0xFF#8] = .ok (.staAbsoluteX 0xFFFF#16, []) ∧
    decode [0b10011001#8, 0x00#8, 0x03#8] = .ok (.staAbsoluteY 0x0300#16, []) ∧
    decode [0b10000001#8, 0x40#8] = .ok (.staIndirectX 0x40#8, []) ∧
    decode [0b10010001#8, 0x40#8] = .ok (.staIndirectY 0x40#8, []) := ⟨rfl, rfl, rfl, rfl, rfl, rfl, rfl⟩

theorem test_decode_refusals : decode [] = .error .truncated ∧ decode [0xFF#8] = .error (.unrecognizedOpcode 0xFF#8) ∧
    decode [0xAD#8, 0x34#8] = .error .truncated ∧
    decodeWith extraEA [0xEA#8] = .error (.notImplemented 0xEA#8) := ⟨rfl, rfl, rfl, rfl⟩

theorem test_decodeTableWord : decodeTableWord 24 0x1234AD = some (.ldaAbsolute 0x1234#16) ∧
    decodeTableWord 16 0xC0A9 = some (.ldaImmediate 0xC0#8) ∧ decodeTableWord 8 0xE8 = some .inx ∧
    decodeTableWord 8 0xFF = none := by decide

theorem test_withFetchWord_runs : (after (step (State.reset.withFetchWord 16 0xC0A9))).map regs =
    some (0xC0#8, 0x00#8, 0x80#8, 0x0002#16) := by decide

/-! ## One step of each instruction: the worked examples of the rules -/

/-- 42_brk.md R110, V-BRK-3. -/
theorem test_brk : (after (step { cpu 0x8000#16 [0x00#8] [] with a := 0x12#8, x := 0x34#8, p := 0xFF#8 })).map (fun t => (regs t, t.phase, t.err)) =
    some ((0x12#8, 0x34#8, 0xFF#8, 0x8001#16), .halted, none) := by decide

/-- 43_inx.md R112, V-INX-1. -/
theorem test_inx_wraps : (after (step { cpu 0x8000#16 [0xE8#8] [] with x := 0xFF#8 })).map regs =
    some (0x00#8, 0x00#8, 0x02#8, 0x8001#16) := by decide

/-- V-INX-6. -/
theorem test_inx_reserved : (after (step { cpu 0x8000#16 [0xE8#8] [] with x := 0x10#8, p := 0x7F#8 })).map regs =
    some (0x00#8, 0x11#8, 0x7D#8, 0x8001#16) := by decide

/-- 47_tax.md R141, V-TAX-4. -/
theorem test_tax : (after (step { cpu 0x8000#16 [0xAA#8] [] with a := 0x00#8, x := 0x55#8, p := 0x80#8 })).map regs =
    some (0x00#8, 0x00#8, 0x02#8, 0x8001#16) := by decide

/-- 44_lda.md R116, V-FLG-2. -/
theorem test_ldaImmediate : (after (step { cpu 0x8000#16 [0xA9#8, 0x80#8] [] with p := 0x7F#8 })).map regs =
    some (0x80#8, 0x00#8, 0xFD#8, 0x8002#16) := by decide

/-- R117, S6. -/
theorem test_ldaZeroPage : (after (step (cpu 0x8000#16 [0xA5#8, 0x10#8] [(0x0010#16, 0x55#8)]))).map regs =
    some (0x55#8, 0x00#8, 0x00#8, 0x8002#16) := by decide

/-- R118. -/
theorem test_ldaZeroPageX : (after (step { cpu 0x8000#16 [0xB5#8, 0x80#8] [(0x007F#16, 0x42#8), (0x017F#16, 0x99#8)] with x := 0xFF#8 })).map regs =
    some (0x42#8, 0xFF#8, 0x00#8, 0x8002#16) := by decide

/-- R119. -/
theorem test_ldaAbsolute : (after (step (cpu 0x8000#16 [0xAD#8, 0x34#8, 0x12#8] [(0x1234#16, 0x77#8)]))).map regs =
    some (0x77#8, 0x00#8, 0x00#8, 0x8003#16) := by decide

/-- R120. -/
theorem test_ldaAbsoluteX : (after (step { cpu 0x8000#16 [0xBD#8, 0xFF#8, 0xFF#8] [(0x0001#16, 0x5A#8)] with x := 0x02#8 })).map regs =
    some (0x5A#8, 0x02#8, 0x00#8, 0x8003#16) := by decide

/-- R121. -/
theorem test_ldaAbsoluteY : (after (step { cpu 0x8000#16 [0xB9#8, 0x00#8, 0x20#8] [(0x2003#16, 0x81#8)] with y := 0x03#8 })).map regs =
    some (0x81#8, 0x00#8, 0x80#8, 0x8003#16) := by decide

/-- R122: the pointer at 0x00FF takes its high byte from 0x0100. -/
theorem test_ldaIndirectX : (after (step { cpu 0x8000#16 [0xA1#8, 0xF0#8] [(0x00FF#16, 0x34#8), (0x0100#16, 0x12#8), (0x0000#16, 0x56#8), (0x1234#16, 0xAB#8), (0x5634#16, 0xCD#8)] with x := 0x0F#8 })).map regs =
    some (0xAB#8, 0x0F#8, 0x80#8, 0x8002#16) := by decide

/-- R123: indexed before the pointer. -/
theorem test_ldaIndirectY : (after (step { cpu 0x8000#16 [0xB1#8, 0x20#8] [(0x0020#16, 0x00#8), (0x0021#16, 0x30#8), (0x0022#16, 0x00#8), (0x0023#16, 0x40#8), (0x3002#16, 0x11#8), (0x4000#16, 0x22#8)] with y := 0x02#8 })).map regs =
    some (0x22#8, 0x00#8, 0x00#8, 0x8002#16) := by decide

/-- 45_ldx.md R126. -/
theorem test_ldxImmediate : (after (step (cpu 0x8000#16 [0xA2#8, 0x00#8] []))).map regs =
    some (0x00#8, 0x00#8, 0x02#8, 0x8002#16) := by decide

/-- R127. -/
theorem test_ldxZeroPage : (after (step (cpu 0x8000#16 [0xA6#8, 0x10#8] [(0x0010#16, 0xF0#8)]))).map regs =
    some (0x00#8, 0xF0#8, 0x80#8, 0x8002#16) := by decide

/-- R128: the old X indexes. -/
theorem test_ldxZeroPageX : (after (step { cpu 0x8000#16 [0xB6#8, 0x10#8] [(0x0011#16, 0x33#8), (0x0010#16, 0x44#8)] with x := 0x01#8 })).map regs =
    some (0x00#8, 0x33#8, 0x00#8, 0x8002#16) := by decide

/-- R129. -/
theorem test_ldxAbsolute : (after (step (cpu 0x8000#16 [0xAE#8, 0x00#8, 0x02#8] [(0x0200#16, 0x01#8)]))).map regs =
    some (0x00#8, 0x01#8, 0x00#8, 0x8003#16) := by decide

/-- R130. -/
theorem test_ldxAbsoluteY : (after (step { cpu 0x8000#16 [0xBE#8, 0xF0#8, 0x02#8] [(0x0300#16, 0x80#8)] with y := 0x10#8 })).map regs =
    some (0x00#8, 0x80#8, 0x80#8, 0x8003#16) := by decide

/-- 46_sta.md R133. -/
theorem test_staZeroPage : (after (step { cpu 0x8000#16 [0x85#8, 0x10#8] [] with a := 0x80#8, p := 0x80#8 })).map (fun t => (t.peek 0x0010#16, t.p, t.pc)) =
    some (0x80#8, 0x80#8, 0x8002#16) := by decide

/-- R134. -/
theorem test_staZeroPageX : (after (step { cpu 0x8000#16 [0x95#8, 0x20#8] [] with a := 0x01#8, x := 0xF0#8 })).map (fun t => (t.peek 0x0010#16, t.p, t.pc)) =
    some (0x01#8, 0x00#8, 0x8002#16) := by decide

/-- R135. -/
theorem test_staAbsolute : (after (step { cpu 0x8000#16 [0x8D#8, 0x00#8, 0x02#8] [(0x0200#16, 0xEE#8)] with a := 0x00#8, p := 0x02#8 })).map (fun t => (t.peek 0x0200#16, t.p, t.pc)) =
    some (0x00#8, 0x02#8, 0x8003#16) := by decide

/-- R136. -/
theorem test_staAbsoluteX : (after (step { cpu 0x8000#16 [0x9D#8, 0xFF#8, 0xFF#8] [] with a := 0x07#8, x := 0x02#8 })).map (fun t => (t.peek 0x0001#16, t.p, t.pc)) =
    some (0x07#8, 0x00#8, 0x8003#16) := by decide

/-- R137. -/
theorem test_staAbsoluteY : (after (step { cpu 0x8000#16 [0x99#8, 0x00#8, 0x03#8] [] with a := 0x09#8, y := 0x05#8 })).map (fun t => (t.peek 0x0305#16, t.p, t.pc)) =
    some (0x09#8, 0x00#8, 0x8003#16) := by decide

/-- R138. -/
theorem test_staIndirectX : (after (step { cpu 0x8000#16 [0x81#8, 0x40#8] [(0x0041#16, 0x78#8), (0x0042#16, 0x56#8)] with a := 0x0A#8, x := 0x01#8 })).map (fun t => (t.peek 0x5678#16, t.p, t.pc)) =
    some (0x0A#8, 0x00#8, 0x8002#16) := by decide

/-- R139. -/
theorem test_staIndirectY : (after (step { cpu 0x8000#16 [0x91#8, 0x40#8] [(0x0042#16, 0xCD#8), (0x0043#16, 0xAB#8)] with a := 0x0B#8, y := 0x02#8 })).map (fun t => (t.peek 0xABCD#16, t.p, t.pc)) =
    some (0x0B#8, 0x00#8, 0x8002#16) := by decide

/-! ## Faults, the top of memory, the resolver's other modes, the commands -/

/-- V-ILL-1. -/
theorem test_illegal : (after (step (cpu 0x8000#16 [0xFF#8] []))).map (fun t => (regs t, t.err)) =
    some ((0x00#8, 0x00#8, 0x00#8, 0x8001#16), some (.unrecognizedOpcode 0xFF#8 0x8000#16)) := by decide

/-- V-PC-1. -/
theorem test_top_brk : (after (step (cpu 0xFFFF#16 [0x00#8] []))).map (fun t => (regs t, t.err)) =
    some ((0x00#8, 0x00#8, 0x00#8, 0xFFFF#16), some (.outOfRange 0x10000)) := by decide

/-- V-PC-2: A and P are written before the fault. -/
theorem test_top_ldaImmediate : (after (step (cpu 0xFFFE#16 [0xA9#8, 0x33#8] []))).map (fun t => (regs t, t.err)) =
    some ((0x33#8, 0x00#8, 0x00#8, 0xFFFF#16), some (.outOfRange 0x10000)) := by decide

/-- V-PC-3. -/
theorem test_top_ldaAbsolute : (after (step (cpu 0xFFFE#16 [0xAD#8, 0x34#8] []))).map (fun t => (regs t, t.err)) =
    some ((0x00#8, 0x00#8, 0x00#8, 0xFFFF#16), some (.outOfRange 0x10000)) := by decide

/-- V-PC-9: an instruction that ends at 0xFFFE completes. -/
theorem test_top_complete : (after (step (cpu 0xFFFC#16 [0xAD#8, 0x00#8, 0x02#8] [(0x0200#16, 0x99#8)]))).map (fun t => (regs t, t.err)) =
    some ((0x99#8, 0x00#8, 0x80#8, 0xFFFF#16), none) := by decide

/-- V-PC-7: the store is done and PC keeps 0xFFFE. -/
theorem test_top_staAbsolute : (after (step { cpu 0xFFFD#16 [0x8D#8, 0x00#8, 0x02#8] [] with a := 0x5A#8 })).map
    (fun t => (t.peek 0x0200#16, t.pc, t.err)) = some (0x5A#8, 0xFFFE#16, some (.outOfRange 0x10000)) := by decide

/-- 95_test_vectors.md section 2.8: the same byte with `CATALOG_EXTRA` = 0xEA. -/
theorem test_extra_notImplemented : (after (stepWith extraEA (cpu 0x8000#16 [0xEA#8] []))).map
    (fun t => (regs t, t.err)) =
    some ((0x00#8, 0x00#8, 0x00#8, 0x8001#16), some (.notImplemented 0xEA#8 0x8000#16)) := by decide

/-- V-EA-4, V-EA-8, V-EA-9, V-EA-10: the modes no instruction selects. -/
theorem test_resolver_only :
    effectiveAddress .zeroPageY 0x9000#16 0x00#8 0x20#8 [(0x9000, 0xF0#8)] = .ok 0x0010#16 ∧
    effectiveAddress .indirect 0x9000#16 0x00#8 0x00#8
      [(0x0200, 0x99#8), (0x02FF, 0x34#8), (0x0300, 0x12#8), (0x9000, 0xFF#8), (0x9001, 0x02#8)] = .ok 0x1234#16 ∧
    effectiveAddress .indirect 0x9000#16 0x00#8 0x00#8 [(0x9000, 0xFF#8), (0x9001, 0xFF#8)] =
      .error (.outOfRange 0x10000) ∧
    effectiveAddress .indirect 0x9000#16 0x00#8 0x00#8
      [(0x9000, 0xFE#8), (0x9001, 0xFF#8), (0xFFFE, 0xCD#8), (0xFFFF, 0xAB#8)] = .ok 0xABCD#16 := ⟨rfl, rfl, rfl, rfl⟩

/-- V-MEM-1, V-MEM-2, V-MEM-5. -/
theorem test_words : Memory.writeWord [] 0x1234#16 0xABCD#16 = .ok [(0x1234, 0xCD#8), (0x1235, 0xAB#8)] ∧
    Memory.readWord [(0x1234, 0xCD#8), (0x1235, 0xAB#8)] 0x1234#16 = .ok 0xABCD#16 ∧
    Memory.writeWord [] 0xFFFF#16 0x1234#16 = .error (.outOfRange 0x10000) := ⟨rfl, rfl, rfl⟩

/-- 10_state.md R19. -/
theorem test_setZN : setZN 0x7D#8 0x00#8 = 0x7F#8 ∧ setZN 0x82#8 0xFF#8 = 0x80#8 := by decide

/-- V-RST-2, V-RST-3: what load and then reset leave. -/
theorem test_load_reset : resetEngine (loadProgram [0xA9#8, 0x01#8, 0x00#8] State.reset) =
    { State.reset with
      pc := 0x8000#16, phase := .reset, mem := [(0x8000, 0xA9#8), (0x8001, 0x01#8), (0xFFFD, 0x80#8)] } := by decide

/-- V-RST-8: reset without load, for every power-on value. -/
theorem test_reset_fresh : (resetEngine State.constructed).phase = .notLoaded ∧ (resetEngine State.constructed).pc = 0x0000#16 :=
  ⟨rfl, rfl⟩

/-- S3, through the host's own commands. -/
theorem test_run_s3 : (after (hostRun [0xA9#8, 0x05#8, 0x00#8] State.reset)).map (fun t => (regs t, t.phase, t.err)) =
    some ((0x05#8, 0x00#8, 0x00#8, 0x8003#16), .halted, none) := by decide

/-- V-ILL-2 through the host's own commands: with the default `CATALOG_EXTRA`, and with the section's value, 0xEA. -/
theorem test_run_illegal : (after (hostRun [0xEA#8, 0x00#8] State.reset)).map (fun t => (regs t, t.phase, t.err)) =
    some ((0x00#8, 0x00#8, 0x00#8, 0x8001#16), .halted, some (.unrecognizedOpcode 0xEA#8 0x8000#16)) := by decide

@[inherit_doc test_run_illegal]
theorem test_run_extra :
    (after (hostRunWith extraEA [0xEA#8, 0x00#8] State.reset)).map (fun t => (regs t, t.phase, t.err)) =
    some ((0x00#8, 0x00#8, 0x00#8, 0x8001#16), .halted, some (.notImplemented 0xEA#8 0x8000#16)) := by decide

/-- V-RST-6: execute in Halted is refused. -/
theorem test_execute_refused : after (hostExecute (raise (.outOfRange 0x10000) State.reset)) = none := by decide

/-! ## Witnesses: each statement with hypotheses, and each of its clauses at a boundary value, is met by a concrete state -/

theorem witness_LegalOpcodeBytes : (CatalogExtra.ofEntries [⟨0xFE#8, .absolute, 3⟩]).isSome = true := by decide

/-- CatalogKeysAreUnique: rows with one byte twice, entries that collide with a row, and a catalog with an entry of its own. -/
theorem witness_CatalogKeysAreUnique : ¬ ([⟨0x95#8, some .sta, .zeroPageX, 2⟩, ⟨0x95#8, some .sta, .absoluteX, 3⟩].map
    Descriptor.code).Nodup ∧ ¬ (catalogCodes ++ [⟨0x9D#8, .absoluteX, 3⟩].map ExtraEntry.code).Nodup ∧
    ⟨0xEA#8, none, .noneAddressing, 1⟩ ∈ extraEA.rows := by decide

theorem witness_UnrecognizedOpcodeRaises : ∃ s : State, s.phase = .running ∧ s.pc ≠ 0xFFFF#16 ∧
    lookup CatalogExtra.default (Memory.read s.mem s.pc) = none := ⟨cpu 0xFFFE#16 [0xFF#8] [], by decide⟩

theorem witness_NotImplementedRaises : ∃ (e : ExtraEntry) (s : State), e ∈ extraEA.entries ∧
    s.phase = .running ∧ s.pc ≠ 0xFFFF#16 ∧ Memory.read s.mem s.pc = e.code :=
  ⟨⟨0xEA#8, .noneAddressing, 1⟩, cpu 0x8000#16 [0xEA#8] [], by decide⟩

theorem witness_StepRunsDecodedInstruction : ∃ s : State, s.phase = .running ∧ s.pc ≠ 0xFFFF#16 ∧
    decode (bytesAtPc s) = .ok (.ldaImmediate 0x33#8, []) := ⟨cpu 0xFFFE#16 [0xA9#8, 0x33#8] [], rfl, by decide, rfl⟩

theorem witness_StepEnabledOnlyWhenRunning : State.reset.phase ≠ .running := by decide

theorem witness_OpcodeAtTopFaults : ∃ s : State, s.phase = .running ∧ s.pc = 0xFFFF#16 := ⟨cpu 0xFFFF#16 [] [], by decide⟩

theorem witness_OperandWordAtTopFaults : ∃ s : State, s.phase = .running ∧ s.pc = 0xFFFE#16 ∧
    Memory.read s.mem 0xFFFE#16 ∈ [0xAD#8, 0xBD#8, 0xB9#8, 0xAE#8, 0xBE#8, 0x8D#8, 0x9D#8, 0x99#8] :=
  ⟨cpu 0xFFFE#16 [0x99#8, 0x00#8] [], by decide⟩

/-- BrkHalts, InxIncrementsX and TaxCopiesA: a step over the byte, at the last address where it completes. -/
theorem witness_one_byte_steps : ∀ op ∈ [0x00#8, 0xE8#8, 0xAA#8], ∃ s : State, s.phase = .running ∧ s.pc ≠ 0xFFFF#16 ∧
    Memory.read s.mem s.pc = op ∧ s.err = none := fun op h => ⟨cpu 0xFFFE#16 [op] [], by revert op; decide⟩

/-- LoadsA, LoadsX, StoresAAt with two bytes: the last PC that completes and the one that faults. -/
theorem witness_two_bytes :
    ((after (exec (.ldaImmediate 0x33#8) (cpu 0xFFFE#16 [] []))).map fun t => (t.a, t.pc, t.err)) =
      some (0x33#8, 0xFFFF#16, none) ∧
    ((after (exec (.ldxImmediate 0x33#8) (cpu 0xFFFF#16 [] []))).map fun t => (t.x, t.pc, t.err)) =
      some (0x33#8, 0xFFFF#16, some (.outOfRange 0x10000)) ∧
    ((after (exec (.staZeroPage 0x33#8) (cpu 0xFFFF#16 [] []))).map fun t => (t.pc, t.err)) =
      some (0xFFFF#16, some (.outOfRange 0x10000)) := by decide

/-- The same with three bytes; at 0xFFFF the value is one higher, in a state that no step gives to `exec` (log 7). -/
theorem witness_three_bytes :
    ((after (exec (.ldaAbsolute 0x0200#16) (cpu 0xFFFD#16 [] []))).map fun t => (t.pc, t.err)) = some (0xFFFF#16, none) ∧
    ((after (exec (.ldxAbsolute 0x0200#16) (cpu 0xFFFE#16 [] []))).map fun t => (t.pc, t.err)) =
      some (0xFFFE#16, some (.outOfRange 0x10000)) ∧
    ((after (exec (.staAbsolute 0x0200#16) (cpu 0xFFFF#16 [] []))).map fun t => (t.pc, t.err)) =
      some (0xFFFF#16, some (.outOfRange 0x10001)) := by decide

theorem witness_RegisterInstructionFrame : ∀ i ∈ [Instr.ldaImmediate 0x01#8, .ldxImmediate 0x01#8, .inx, .tax],
    i.mnemonic ∈ [Mnemonic.lda, .ldx, .inx, .tax] ∧ (after (exec i (cpu 0x8000#16 [] []))).isSome := by decide

/-- StoreFrame, and the hypotheses of ByteWriteLaws, WordAccess and CanonicalMemoryIsUnique on a memory that lists something. -/
theorem witness_StoreFrame : ∃ (i : Instr) (s t : State), Memory.wf s.mem = true ∧ s.mem ≠ [] ∧ i.mnemonic = .sta ∧
    exec i s = .next t := ⟨.staZeroPage 0x10#8, cpu 0x8000#16 [0x85#8, 0x10#8] [], _, by decide, by decide, rfl, rfl⟩

theorem witness_FlagsFollowResult : ∀ i ∈ [Instr.brk, .ldaZeroPage 0x00#8, .ldxZeroPage 0x00#8, .inx, .tax, .staZeroPage 0x00#8],
    (after (exec i (cpu 0x8000#16 [] []))).isSome := by decide

/-- The word accesses and the resolver: both sides of 0xFFFF. -/
theorem witness_WordAccess : Memory.wf [(0xFFFE, 0xCD#8), (0xFFFF, 0xAB#8)] = true ∧ (0xFFFE#16 : Addr) ≠ 0xFFFF#16 ∧
    Memory.readWord [(0xFFFE, 0xCD#8), (0xFFFF, 0xAB#8)] 0xFFFE#16 = .ok 0xABCD#16 := ⟨by decide, by decide, rfl⟩

/-- StepKeepsInvariant and CommandsKeepInvariant: a state with a listed memory that steps, and one that each command takes. -/
theorem witness_Inv : ∃ s : State, Inv s ∧ s.mem ≠ [] ∧ (after (step s)).isSome :=
  ⟨cpu 0x8000#16 [0x85#8, 0x10#8] [], ⟨by decide, fun h => absurd rfl h⟩, by decide, by decide⟩

theorem witness_commands : Inv { State.reset with phase := .reset } ∧
    (after (hostLoad [0x00#8] { State.reset with phase := .reset })).isSome ∧
    (after (hostReset { State.reset with phase := .reset })).isSome ∧
    (after (hostExecute { State.reset with phase := .reset })).isSome ∧
    (after (hostRun [0x00#8] { State.reset with phase := .reset })).isSome ∧
    (after (hostPoke 0x0010#16 0x55#8 { State.reset with phase := .reset })).isSome ∧
    (∀ write ∈ [hostWriteA, hostWriteX, hostWriteY, hostWriteP], (after (write 0xFF#8 { State.reset with phase := .reset })).isSome) ∧
    (after (hostWritePc 0xFFFF#16 { State.reset with phase := .reset })).isSome :=
  ⟨⟨rfl, fun h => absurd rfl h⟩, by decide, by decide, by decide, by decide, by decide, by decide, by decide⟩

/-- CompletedStepAdvancesByLength and StepKeepsYAndReservedBits: a step that completes and one that halts. -/
theorem witness_step_ends : ((after (step (cpu 0x8000#16 [0xAD#8] []))).map State.phase) = some .running ∧
    ((after (step (cpu 0x8000#16 [0x00#8] []))).map State.phase) = some .halted := by decide

/-- OnlyStoresWriteMemory: a step that changes a byte. -/
theorem witness_OnlyStoresWriteMemory : ∃ s t : State, Memory.wf s.mem = true ∧ step s = .next t ∧
    Memory.read t.mem 0x0010#16 ≠ Memory.read s.mem 0x0010#16 :=
  ⟨{ cpu 0x8000#16 [0x85#8, 0x10#8] [] with a := 0x77#8 }, _, by decide, rfl, by decide⟩

/-- GoodEndExactlyAfterBrk: without an error, a step that ends well and one that does not. -/
theorem witness_GoodEndExactlyAfterBrk : ∃ s t : State, s.err = none ∧ step s = .next t ∧ GoodEnd t :=
  ⟨cpu 0x8000#16 [0x00#8] [], _, rfl, rfl, rfl, rfl⟩

/-- ErrorsAStepCanRaise (and UnrecognizedOpcodeRaises): a step that latches an error. -/
theorem witness_ErrorsAStepCanRaise : ∃ (s t : State) (e : RaisedError), s.err = none ∧ step s = .next t ∧ t.err = some e :=
  ⟨cpu 0x8000#16 [0xFF#8] [], _, _, rfl, rfl, rfl⟩

/-- StoreSeenByNextFetch: STA Absolute onto the byte after itself, a byte that is in no catalog. -/
theorem witness_StoreSeenByNextFetch : ∃ (s t : State) (i : Instr), Memory.wf s.mem = true ∧ i.mnemonic = .sta ∧ exec i s = .next t ∧
    t.phase = .running ∧ s.addressOf i.form = .ok t.pc ∧ t.pc ≠ 0xFFFF#16 ∧ lookup CatalogExtra.default s.a = none :=
  ⟨{ cpu 0x8001#16 [] [] with a := 0xFF#8 }, _, .staAbsolute 0x8003#16, by decide, rfl, rfl, by decide, rfl, by decide, by decide⟩

/-- Its last clause: the store of program P3 (95_test_vectors.md), which makes an INX. -/
theorem witness_StoreSeenByNextFetch_legal : ∃ (s t : State) (i j : Instr) (rest : List Byte), Memory.wf s.mem = true ∧
    i.mnemonic = .sta ∧ exec i s = .next t ∧ t.phase = .running ∧ s.addressOf i.form = .ok t.pc ∧ t.pc ≠ 0xFFFF#16 ∧
    decode (s.a :: (bytesAtPc t).tail) = .ok (j, rest) ∧ j = .inx :=
  ⟨{ cpu 0x8003#16 [0x05#8, 0x80#8] [] with a := 0xE8#8 }, _, .staAbsolute 0x8005#16, _, _, by decide, rfl, rfl, by decide, rfl,
    by decide, rfl, rfl⟩

/-- Its first two clauses at the top of memory: a store that completes at 0xFFFF and writes there. -/
theorem witness_StoreSeenByNextFetch_top : ∃ (s t : State) (i : Instr), Memory.wf s.mem = true ∧ i.mnemonic = .sta ∧
    exec i s = .next t ∧ t.phase = .running ∧ s.addressOf i.form = .ok t.pc ∧ t.pc = 0xFFFF#16 :=
  ⟨cpu 0xFFFD#16 [] [], _, .staAbsolute 0xFFFF#16, by decide, rfl, rfl, by decide, rfl, rfl⟩

/-- BrkHalts: a running state without an error in which an instruction answers a good end. -/
theorem witness_BrkHalts : ∃ (i : Instr) (s t : State), s.phase = .running ∧ s.err = none ∧ exec i s = .next t ∧ GoodEnd t :=
  ⟨.brk, cpu 0x8000#16 [0x00#8] [], _, rfl, rfl, rfl, rfl, rfl⟩

/-- ResetCommandState, ResetIsIdempotent, LoadPlacesProgram, RunForgetsRegisters, HostWritesChangeOneThing: idle engines, and programs of
the lengths where the clauses meet. -/
theorem witness_idle : State.reset.phase ≠ .running ∧ Memory.wf State.reset.mem = true ∧
    (after (hostReset State.reset)) = some State.reset ∧
    (List.replicate 32768 0xEA#8).length ≤ 32768 ∧ 32768 < (List.replicate 32769 0xEA#8).length := by
  rw [List.length_replicate, List.length_replicate]
  decide

theorem witness_RunForgetsRegisters : ∃ s s' : State, s ≠ s' ∧ s.phase ≠ .running ∧ s'.phase ≠ .running ∧ s.mem = s'.mem :=
  ⟨State.reset, { State.reset with a := 0x0A#8 }, by decide⟩

/-- ExecuteAlwaysEnds, without an error, and CommandsByPhase: each phase the clauses name. -/
theorem witness_phases : ({ State.reset with phase := .reset } : State).phase = .reset ∧ State.reset.err = none ∧
    (cpu 0x8000#16 [] []).phase = .running ∧ State.reset.phase ≠ .reset := by decide

end Sys2Proof.Tests
end

section
/-!
PROOF. The status byte after an instruction and the flags that stand in it (10_state.md R16, R17, R19).
-/

namespace Sys2Proof.Machine

/-- The second advance, completed or faulted, keeps all but PC, and the engine's two fields but for a fault. -/
theorem secondAdvance_keeps {len : Nat} {w t : State} (h : secondAdvance len w = .next t) :
    t.a = w.a ∧ t.x = w.x ∧ t.y = w.y ∧ t.p = w.p ∧ t.mem = w.mem ∧ KeepsEngine w t := by
  rcases secondAdvance_cases (len := len) (s := w) with ⟨-, hadv⟩ | ⟨-, hadv⟩ <;> rw [hadv] at h <;> cases h
  · exact ⟨rfl, rfl, rfl, rfl, rfl, .inl ⟨rfl, rfl⟩⟩
  · exact ⟨rfl, rfl, rfl, rfl, rfl, .inr ⟨rfl, by simp⟩⟩

/-- The state an instruction answers: BRK's halt, or what its operation wrote, kept by the second advance. -/
theorem exec_next_cases {i : Instr} {s t : State} (h : exec i s = .next t) :
    (i = .brk ∧ t = halt s) ∨
    (∃ w, Wrote i s w ∧ t.a = w.a ∧ t.x = w.x ∧ t.y = w.y ∧ t.p = w.p ∧ t.mem = w.mem ∧ KeepsEngine w t) := by
  rcases exec_cases i s with ⟨hi, hbrk⟩ | ⟨w, hw, hadv⟩
  · rw [hbrk] at h
    cases h
    exact .inl ⟨hi, rfl⟩
  · exact .inr ⟨w, hw, secondAdvance_keeps (hadv ▸ h)⟩

/-- The status byte an operation has written: LDA's from A, that of LDX, INX and TAX from X, none by STA. -/
theorem Wrote.status {i : Instr} {s w : State} (h : Wrote i s w) :
    (i.mnemonic = .lda ∧ w.p = setZN s.p w.a) ∨
    (i.mnemonic ∈ [Mnemonic.ldx, .inx, .tax] ∧ w.p = setZN s.p w.x) ∨
    (i.mnemonic = .sta ∧ w.p = s.p) := by
  rcases h with ⟨hm, v, -, rfl⟩ | ⟨hm, v, -, rfl⟩ | ⟨rfl, rfl⟩ | ⟨rfl, rfl⟩ | ⟨hm, ea, -, rfl⟩
  · exact .inl ⟨hm, rfl⟩
  · exact .inr (.inl ⟨by simp [hm], rfl⟩)
  · exact .inr (.inl ⟨by decide, rfl⟩)
  · exact .inr (.inl ⟨by decide, rfl⟩)
  · exact .inr (.inr ⟨hm, rfl⟩)

/-- The status byte an instruction leaves, whether or not its second advance faults. -/
theorem exec_status {i : Instr} {s t : State} (h : exec i s = .next t) :
    (i.mnemonic = .lda ∧ t.p = setZN s.p t.a) ∨
    (i.mnemonic ∈ [Mnemonic.ldx, .inx, .tax] ∧ t.p = setZN s.p t.x) ∨
    (i.mnemonic ∈ [Mnemonic.sta, .brk] ∧ t.p = s.p) := by
  rcases exec_next_cases h with ⟨rfl, rfl⟩ | ⟨w, hw, ha, hx, -, hp, -, -⟩
  · exact .inr (.inr ⟨by decide, rfl⟩)
  · rw [ha, hx, hp]
    rcases hw.status with hlda | hldx | ⟨hm, hkept⟩
    · exact .inl hlda
    · exact .inr (.inl hldx)
    · exact .inr (.inr ⟨by simp [hm], hkept⟩)

/-- The zero bit after an update says that the result is zero. -/
theorem setZN_bit1_iff (p r : Byte) : (setZN p r).getLsbD 1 = true ↔ r = 0x00#8 := by
  rw [setZN_bit1, decide_eq_true_iff]

/-- The flags in a status byte that SetZN wrote (10_state.md R16, R17). -/
theorem flags_of_setZN {t : State} {p r : Byte} (h : t.p = setZN p r) :
    (t.flagZ = true ↔ r = 0x00#8) ∧ t.flagN = r.getLsbD 7 := by
  rw [State.flagZ, State.flagN, h]
  exact ⟨setZN_bit1_iff p r, setZN_bit7 p r⟩

/-- SetZN as the rule writes it (10_state.md R19): the two flag bits moved to their places are masks of the result. -/
theorem setZN_eq_masks (p r : Byte) :
    setZN p r = (p &&& 0x7D#8) ||| (r &&& 0x80#8) ||| (if r = 0x00#8 then 0x02#8 else 0x00#8) := by
  have hn : ∀ r : Byte, (if r.getLsbD 7 then 1#8 else 0#8) <<< 7 = r &&& 0x80#8 := by decide
  have hz : (if r = 0x00#8 then 1#8 else 0#8) <<< 1 = if r = 0x00#8 then 0x02#8 else 0x00#8 := by
    split <;> rfl
  simp only [setZN, hn, hz]

/-- A result that is zero has bit 7 clear, so SetZN never sets both flags. -/
theorem setZN_not_both (p r : Byte) : ¬ ((setZN p r).getLsbD 7 = true ∧ (setZN p r).getLsbD 1 = true) := by
  rw [setZN_bit7, setZN_bit1_iff]
  rintro ⟨hneg, rfl⟩
  exact absurd hneg (by decide)

/-- No mnemonic both writes X and leaves the flags. -/
theorem writesX_not_keepsFlags {m : Mnemonic} (h : m ∈ [Mnemonic.ldx, .inx, .tax]) : m ∉ [Mnemonic.sta, .brk] := by
  cases m <;> simp at h ⊢

/-- Settles O24: the status byte of each family (`exec_status`) and the flags in it. -/
theorem flagsFollowResult : Obligations.FlagsFollowResult := by
  intro i s t h
  rcases exec_status h with ⟨hm, hp⟩ | ⟨hm, hp⟩ | ⟨hm, hp⟩
  · exact ⟨fun _ => flags_of_setZN hp, by simp [hm], by simp [hm]⟩
  · exact ⟨fun hlda => by simp [hlda] at hm, fun _ => flags_of_setZN hp,
      fun hkept => absurd hkept (writesX_not_keepsFlags hm)⟩
  · exact ⟨fun hlda => by simp [hlda] at hm, fun hx => absurd hm (writesX_not_keepsFlags hx),
      fun _ => by simp only [State.flagZ, State.flagN, hp, and_self]⟩

/-- Settles O25, from the bits of SetZN; the three worked examples are computed. -/
theorem setZnBits : Obligations.SetZnBits :=
  ⟨fun p r => ⟨setZN_eq_masks p r, setZN_bit7 p r, setZN_bit1_iff p r, fun _ => setZN_reserved p r, setZN_not_both p r⟩,
    by decide, by decide, by decide⟩

end Sys2Proof.Machine
end

section
/-!
SUPPORT. The resolver's sums in numbers: a zero-extended 8-bit sum, and a 16-bit sum with an index (40_addressing.md R72 to R77).
-/

namespace Sys2Proof

theorem zext16_eq_ofNat (v : Byte) : zext16 v = BitVec.ofNat 16 v.toNat :=
  (BitVec.ofNat_toNat 16 v).symm

theorem zext16_add_eq_ofNat (u v : Byte) : zext16 (u + v) = BitVec.ofNat 16 ((u.toNat + v.toNat) % 256) := by
  rw [zext16_eq_ofNat, BitVec.toNat_add]

theorem wordOf_eq_ofNat (hi lo : Byte) : wordOf hi lo = BitVec.ofNat 16 (hi.toNat * 256 + lo.toNat) := by
  rw [← wordOf_toNat, BitVec.ofNat_toNat, BitVec.setWidth_eq]

theorem wordOf_add_zext16 (hi lo v : Byte) :
    wordOf hi lo + zext16 v = BitVec.ofNat 16 ((hi.toNat * 256 + lo.toNat + v.toNat) % 65536) := by
  apply BitVec.eq_of_toNat_eq
  rw [BitVec.toNat_add, wordOf_toNat, zext16_toNat, BitVec.toNat_ofNat, Nat.mod_mod]

end Sys2Proof
end

section
/-!
PROOF. The effective addresses that the resolver computes without a pointer, and the two modes it refuses
(40_addressing.md R71 to R77, R81).
-/

namespace Sys2Proof.Machine

variable {pc : Addr} {mem : Memory}

/-- An operand word that is read is the address of Absolute, and the base of the two indexed modes. -/
theorem effectiveAddress_absolute_of_word {w : Addr} (x y : Byte) (h : Memory.readWord mem pc = .ok w) :
    effectiveAddress .absolute pc x y mem = .ok w ∧
    effectiveAddress .absoluteX pc x y mem = .ok (w + zext16 x) ∧
    effectiveAddress .absoluteY pc x y mem = .ok (w + zext16 y) := by
  simp only [effectiveAddress, assemble, h, Except.map, addressOf, and_self]

/-- A mode whose operand cannot be assembled raises that error. -/
theorem effectiveAddress_of_assemble_error {mode : Mode} {e : RaisedError} (x y : Byte)
    (h : assemble mode pc mem = .error e) : effectiveAddress mode pc x y mem = .error e := by
  rw [effectiveAddress, h]

/-- Settles O26: the operand byte is read without a fault, and its 8-bit sum with an index is zero-extended. -/
theorem resolverZeroPageModes : Obligations.ResolverZeroPageModes := by
  intro pc x y mem
  refine ⟨rfl, ?_, ?_, ?_⟩
  · exact congrArg Except.ok (zext16_eq_ofNat _)
  · exact congrArg Except.ok (zext16_add_eq_ofNat _ x)
  · exact congrArg Except.ok (zext16_add_eq_ofNat _ y)

/-- Settles O27: below the top the operand word is read and the index added to it; at the top its read is the fault. -/
theorem resolverAbsoluteModes : Obligations.ResolverAbsoluteModes := by
  intro pc x y mem
  constructor
  · intro hpc
    obtain ⟨habs, habsX, habsY⟩ := effectiveAddress_absolute_of_word x y (Memory.readWord_ok mem hpc)
    refine ⟨?_, ?_, ?_⟩
    · rw [habs, wordOf_eq_ofNat]
    · rw [habsX, wordOf_add_zext16]
    · rw [habsY, wordOf_add_zext16]
  · rintro rfl
    have hread := Memory.readWord_top mem
    refine ⟨?_, ?_, ?_⟩ <;>
      exact effectiveAddress_of_assemble_error x y (by rw [assemble, hread]; rfl)

/-- Settles O29: both tags assemble to an operand without an address, and their codes are computed. -/
theorem resolverRefusesInapplicableModes : Obligations.ResolverRefusesInapplicableModes :=
  fun _ _ _ _ => ⟨rfl, rfl, rfl, rfl⟩

end Sys2Proof.Machine
end

section
/-!
PROOF. The step on a byte that has no descriptor (41_engine.md R93, 60_exceptions.md R152).
-/

namespace Sys2Proof.Machine

variable {extra : CatalogExtra} {s : State}

/-- A step in phase Running whose first half faults ends in the state that the fault leaves. -/
theorem stepWith_of_fetch_raised {t : State} (hrun : s.phase = .running) (hf : fetch extra s = .raised t) :
    stepWith extra s = .next t := by
  rw [stepWith_running hrun, hf]

/-- A miss of the decode unit is met after the first advance, so PC is one further and the record has the opcode's address. -/
theorem fetch_of_lookup_none (hpc : s.pc ≠ 0xFFFF#16) (hmiss : lookup extra (Memory.read s.mem s.pc) = none) :
    fetch extra s = .raised
      (raise (.unrecognizedOpcode (Memory.read s.mem s.pc) s.pc) { s with pc := s.pc + 1#16 }) := by
  rcases fetch_cases extra s with ⟨htop, -⟩ | ⟨-, -, hf⟩ | ⟨d, -, hhit, -⟩ | ⟨d, _, -, hhit, -⟩
  · exact absurd htop hpc
  · exact hf
  · cases hmiss.symm.trans hhit
  · cases hmiss.symm.trans hhit

/-- Settles O4: the first half of the step misses in the catalog, and `raise` changes the phase and the latch alone. -/
theorem unrecognizedOpcodeRaises : Obligations.UnrecognizedOpcodeRaises :=
  fun _ _ hrun hpc hmiss => stepWith_of_fetch_raised hrun (fetch_of_lookup_none hpc hmiss)

end Sys2Proof.Machine
end

section
/-!
PROOF. The step on a byte whose format has no operand, and what INX does in it (43_inx.md R112).
-/

namespace Sys2Proof.Machine

/-- An opcode without an operand byte gives its instruction after the first advance (30_encoding.md R51). -/
theorem fetch_of_one_byte {extra : CatalogExtra} {s : State} {d : Descriptor} {i : Instr} (hpc : s.pc ≠ 0xFFFF#16)
    (hhit : lookup extra (Memory.read s.mem s.pc) = some d) (harm : dispatchFormat d = some (.f1 i)) :
    fetch extra s = .instr i { s with pc := s.pc + 1#16 } := by
  rcases fetch_cases extra s with
    ⟨htop, -⟩ | ⟨-, hmiss, -⟩ | ⟨d', -, hhit', hnone, -⟩ | ⟨d', format, -, hhit', hformat, hf⟩
  · exact absurd htop hpc
  · cases hmiss.symm.trans hhit
  · cases hhit.symm.trans hhit'
    cases hnone.symm.trans harm
  · cases hhit.symm.trans hhit'
    cases hformat.symm.trans harm
    exact hf

/-- A step in phase Running whose first half gives an instruction is that instruction's meaning. -/
theorem stepWith_of_fetch_instr {extra : CatalogExtra} {s s1 : State} {i : Instr} (hrun : s.phase = .running)
    (hf : fetch extra s = .instr i s1) : stepWith extra s = exec i s1 := by
  rw [stepWith_running hrun, hf]

/-- INX answers in every state: X and the flags are written, and its second advance adds nothing. -/
theorem exec_inx (s : State) : exec .inx s = .next { s with x := s.x + 1#8, p := setZN s.p (s.x + 1#8) } :=
  writeIndexX_eq (s.x + 1#8) s

/-- The sum of a byte and one is taken mod 256. -/
theorem byte_succ_eq_ofNat (b : Byte) : b + 1#8 = BitVec.ofNat 8 ((b.toNat + 1) % 256) := by
  apply BitVec.eq_of_toNat_eq
  rw [BitVec.toNat_add, BitVec.toNat_ofNat, BitVec.toNat_ofNat, Nat.mod_mod]

/-- The one byte whose successor is zero is the one that wraps. -/
theorem byte_succ_eq_zero_iff (b : Byte) : b + 1#8 = 0x00#8 ↔ b = 0xFF#8 := by
  constructor <;> intro h <;> bv_omega

/-- Bit 7 of a byte in numbers. -/
theorem byte_bit7_iff (b : Byte) : b.getLsbD 7 = true ↔ 0x80 ≤ b.toNat := by
  rw [← BitVec.msb_eq_getLsbD_last b, BitVec.msb_eq_decide, decide_eq_true_iff]

/-- The successor of a byte is negative from 0x7F on, up to the byte that wraps. -/
theorem byte_succ_bit7_iff (b : Byte) : (b + 1#8).getLsbD 7 = true ↔ 0x7F ≤ b.toNat ∧ b.toNat ≤ 0xFE := by
  have hb := b.isLt
  rw [byte_bit7_iff, BitVec.toNat_add, BitVec.toNat_ofNat]
  omega

/-- The opcode byte of INX is a key of the default catalog. -/
theorem lookup_inx : lookup CatalogExtra.default 0xE8#8 = some ⟨0xE8#8, some .inx, .noneAddressing, 1⟩ := by decide

/-- The flags of a successor in terms of the byte before it (10_state.md R16, R17). -/
theorem flags_of_setZN_succ {t : State} {p b : Byte} (h : t.p = setZN p (b + 1#8)) :
    (t.flagZ = true ↔ b = 0xFF#8) ∧ (t.flagN = true ↔ 0x7F ≤ b.toNat ∧ b.toNat ≤ 0xFE) := by
  obtain ⟨hzero, hneg⟩ := flags_of_setZN h
  exact ⟨hzero.trans (byte_succ_eq_zero_iff b), by rw [hneg, byte_succ_bit7_iff]⟩

/-- Settles O12: INX's meaning in every state (`exec_inx`) with the flags of the new X; and its byte has no operand, so a step over it
is that meaning at PC + 1. -/
theorem inxIncrementsX : Obligations.InxIncrementsX := by
  refine ⟨rfl, fun s => ?_, fun s hrun hpc hop => ?_⟩
  · exact ⟨_, _, byte_succ_eq_ofNat s.x, exec_inx s, rfl, flags_of_setZN_succ rfl⟩
  · have hfetch := fetch_of_one_byte hpc (hop ▸ lookup_inx) rfl
    exact (stepWith_of_fetch_instr hrun hfetch).trans (exec_inx _)

end Sys2Proof.Machine
end

section
/-!
PROOF. What TAX does, and the step over its byte (47_tax.md R141).
-/

namespace Sys2Proof.Machine

/-- TAX answers in every state: X and the flags are written from A, and its second advance adds nothing. -/
theorem exec_tax (s : State) : exec .tax s = .next { s with x := s.a, p := setZN s.p s.a } :=
  writeIndexX_eq s.a s

/-- The opcode byte of TAX is a key of the default catalog. -/
theorem lookup_tax : lookup CatalogExtra.default 0xAA#8 = some ⟨0xAA#8, some .tax, .noneAddressing, 1⟩ := by decide

/-- Settles O13: TAX's meaning in every state (`exec_tax`) with the flags of A; and its byte has no operand, so a step over it is that
meaning at PC + 1. -/
theorem taxCopiesA : Obligations.TaxCopiesA := by
  refine ⟨rfl, fun s => ?_, fun s hrun hpc hop => ?_⟩
  · exact ⟨_, exec_tax s, rfl, flags_of_setZN rfl⟩
  · have hfetch := fetch_of_one_byte hpc (hop ▸ lookup_tax) rfl
    exact (stepWith_of_fetch_instr hrun hfetch).trans (exec_tax _)

end Sys2Proof.Machine
end

section
/-!
SUPPORT. A catalog with unique keys (30_encoding.md R55): a descriptor of it is what its own code looks up.
-/

namespace Sys2Proof

/-- The test of R55 is that no code occurs twice. -/
theorem uniqueCodes_iff_nodup (codes : List Byte) : uniqueCodes codes = true ↔ codes.Nodup := by
  induction codes with
  | nil => exact iff_of_true rfl .nil
  | cons c rest ih => simp [uniqueCodes, ih]

/-- The keys of a legal catalog are unique, those of `CATALOG_EXTRA` included. -/
theorem rows_codes_nodup (extra : CatalogExtra) : (extra.rows.map Descriptor.code).Nodup := by
  have hwf := extra.wf
  simp only [extraWf, catalogWf, Bool.and_eq_true] at hwf
  obtain ⟨⟨hunique, -⟩, -⟩ := hwf
  exact (uniqueCodes_iff_nodup _).mp hunique

/-- No descriptor shadows another one. -/
theorem lookup_of_mem {extra : CatalogExtra} {d : Descriptor} (hd : d ∈ extra.rows) : lookup extra d.code = some d := by
  cases hl : lookup extra d.code with
  | none => exact absurd (List.find?_eq_none.mp hl d hd) (by simp)
  | some d' =>
    have hcode : d'.code = d.code := by simpa using List.find?_some hl
    have hsame := List.inj_on_of_nodup_map (rows_codes_nodup extra) (List.mem_of_find?_eq_some hl) hd hcode
    rw [hsame]

/-- An entry of `CATALOG_EXTRA` is what its code looks up. -/
theorem lookup_extra {extra : CatalogExtra} {e : ExtraEntry} (he : e ∈ extra.entries) :
    lookup extra e.code = some e.descriptor :=
  lookup_of_mem (List.mem_append_right _ (List.mem_map_of_mem he))

/-- A descriptor without a mnemonic has no arm (41_engine.md R94). -/
theorem dispatchFormat_of_no_mnemonic {d : Descriptor} (h : d.mnemonic = none) : dispatchFormat d = none := by
  rw [dispatchFormat, h]

end Sys2Proof
end

section
/-!
PROOF. The step on a byte that is catalogued without an arm, and the errors that a step can latch (60_exceptions.md R153).
-/

namespace Sys2Proof.Machine

variable {extra : CatalogExtra} {s t : State}

/-- A byte without an arm is met after the first advance, so PC is one further and the record has the opcode's address. -/
theorem fetch_of_no_arm {d : Descriptor} (hpc : s.pc ≠ 0xFFFF#16)
    (hhit : lookup extra (Memory.read s.mem s.pc) = some d) (hnone : dispatchFormat d = none) :
    fetch extra s = .raised
      (raise (.notImplemented (Memory.read s.mem s.pc) s.pc) { s with pc := s.pc + 1#16 }) := by
  rcases fetch_cases extra s with ⟨htop, -⟩ | ⟨-, hmiss, -⟩ | ⟨_, -, -, -, hf⟩ | ⟨d', format, -, hhit', hformat, -⟩
  · exact absurd htop hpc
  · cases hmiss.symm.trans hhit
  · exact hf
  · cases hhit.symm.trans hhit'
    cases hnone.symm.trans hformat

/-- The latch after an instruction: as before, or the fault of its second advance. -/
theorem exec_err {i : Instr} (h : exec i s = .next t) :
    t.err = s.err ∨ t.err = some (.outOfRange (s.pc.toNat + (i.length - 1))) := by
  rcases exec_cases i s with ⟨-, hbrk⟩ | ⟨w, hw, hadv⟩
  · cases hbrk.symm.trans h
    exact .inl rfl
  · obtain ⟨-, hpc, -, herr⟩ := hw.keeps
    rcases secondAdvance_cases (len := i.length) (s := w) with ⟨-, hok⟩ | ⟨-, hfault⟩
    · cases (hadv.trans hok).symm.trans h
      exact .inl herr
    · cases (hadv.trans hfault).symm.trans h
      exact .inr (by rw [raise_err, hpc])

/-- A step that newly latches NotImplemented was over a catalogued byte without a mnemonic. -/
theorem lookup_of_step_notImplemented {op : Byte} {addr : Addr} (hs : s.err = none) (h : stepWith extra s = .next t)
    (ht : t.err = some (.notImplemented op addr)) :
    ∃ d, lookup extra (Memory.read s.mem s.pc) = some d ∧ d.mnemonic = none := by
  obtain ⟨-, ⟨-, rfl⟩ | ⟨-, -, rfl⟩ | ⟨d, -, hhit, hnone, -⟩ | ⟨_, -, -, -, -, -, -, rfl⟩ |
    ⟨_, i, -, -, -, -, -, -, -, hexec⟩⟩ := stepWith_cases h
  · cases ht
  · cases ht
  · exact ⟨d, hhit, hnone⟩
  · cases ht
  · rcases exec_err hexec with hkept | hfault
    · cases (ht.symm.trans hkept).trans hs
    · cases ht.symm.trans hfault

/-- Settles O5: an entry is what its byte looks up and it has no arm, so the first half of the step raises; and with the default set
what is looked up is a row of the catalog, which has one. -/
theorem notImplementedRaises : Obligations.NotImplementedRaises := by
  refine ⟨fun extra e s he hrun hpc hread => ?_, fun s t op addr hs hstep ht => ?_⟩
  · have hhit : lookup extra (Memory.read s.mem s.pc) = some e.descriptor := by rw [hread, lookup_extra he]
    have hfetch := fetch_of_no_arm hpc hhit (dispatchFormat_of_no_mnemonic rfl)
    rw [stepWith_of_fetch_raised hrun hfetch, hread]
    rfl
  · obtain ⟨d, hhit, hnone⟩ := lookup_of_step_notImplemented hs hstep ht
    exact dispatchFormat_isSome (lookup_default_mem hhit).1 (dispatchFormat_of_no_mnemonic hnone)

end Sys2Proof.Machine
end

section
/-!
PROOF. The host's reset (70_reset_and_hazards.md R180, R185).
-/

namespace Sys2Proof.Machine

/-- A command issued outside Running has its effect. -/
theorem unlessRunning_of_ne {name : CommandName} {act : State → State} {s : State} (h : s.phase ≠ .running) :
    unlessRunning name act s = .next (act s) := if_neg h

@[simp] theorem resetEngine_phase (s : State) :
    (resetEngine s).phase = if s.phase = .notLoaded then .notLoaded else .reset := by
  rw [resetEngine_eq]

/-- A reset leaves the engine in a phase that allows the next one. -/
theorem resetEngine_phase_ne_running (s : State) : (resetEngine s).phase ≠ .running := by
  rw [resetEngine_phase]
  split <;> decide

/-- All that a reset reads is the vector in memory, which it keeps, and whether the phase is NotLoaded, which it keeps too. -/
theorem resetEngine_resetEngine (s : State) : resetEngine (resetEngine s) = resetEngine s := by
  by_cases h : s.phase = .notLoaded <;> simp [resetEngine_eq, h]

/-- Settles O44: the first reset's effect allows a second one and is fixed by it. -/
theorem resetIsIdempotent : Obligations.ResetIsIdempotent := by
  intro s t h
  obtain ⟨-, rfl⟩ := unlessRunning_next h
  calc hostReset (resetEngine s)
    _ = .next (resetEngine (resetEngine s)) := unlessRunning_of_ne (resetEngine_phase_ne_running s)
    _ = .next (resetEngine s) := by rw [resetEngine_resetEngine]

end Sys2Proof.Machine
end

section
/-!
PROOF. The decoder in terms of the catalog's formats, and decoding against encoding (30_encoding.md R51 to R56).
-/

namespace Sys2Proof

/-- A format reads `i` off operand bytes, leaving `rest` (30_encoding.md R51, R53). -/
def Format.Reads (format : Format) (bytes : List Byte) (i : Instr) (rest : List Byte) : Prop :=
  match format with
  | .f1 j => i = j ∧ bytes = rest
  | .f2 build => ∃ d8, i = build d8 ∧ bytes = d8 :: rest
  | .f3 build => ∃ lo hi, i = build (wordOf hi lo) ∧ bytes = lo :: hi :: rest

/-- What the decoder answers with an instruction: the opcode is a hit, its descriptor has an arm, and the arm's format reads the
instruction off the bytes after it. -/
theorem decodeWith_cons_ok_iff {extra : CatalogExtra} {op : Byte} {bytes rest : List Byte} {i : Instr} :
    decodeWith extra (op :: bytes) = .ok (i, rest) ↔
      ∃ d format, lookup extra op = some d ∧ dispatchFormat d = some format ∧ format.Reads bytes i rest := by
  cases hl : lookup extra op with
  | none => simp [decodeWith, hl]
  | some d =>
    cases hd : dispatchFormat d with
    | none => simp [decodeWith, hl, hd]
    | some format =>
      cases format with
      | f1 j => simp [decodeWith, hl, hd, Format.Reads, eq_comm]
      | f2 build => cases bytes <;> simp [decodeWith, hl, hd, Format.Reads, eq_comm]
      | f3 build =>
        match bytes with
        | [] | [_] => simp [decodeWith, hl, hd, Format.Reads]
        | lo :: hi :: _ => simp [decodeWith, hl, hd, Format.Reads, eq_comm]

/-- A word and its two bytes determine each other (20_memory.md R35). -/
theorem eq_wordOf_iff {w : Addr} {hi lo : Byte} : w = wordOf hi lo ↔ lo = loByte w ∧ hi = hiByte w := by
  constructor
  · rintro rfl
    simp
  · rintro ⟨rfl, rfl⟩
    simp

/-- The format that the dispatch mux chooses for an instruction's mnemonic and mode reads it off exactly the operand bytes of its
encoding. -/
theorem instrFormat_reads_iff (i : Instr) :
    ∃ format, instrFormat i.mnemonic i.form.mode = some format ∧
      ∀ bytes rest, format.Reads bytes i rest ↔ bytes = (encode i).tail ++ rest := by
  cases i <;> exact ⟨_, rfl, fun bytes rest => by simp [Format.Reads, encode, eq_wordOf_iff, and_assoc]⟩

/-- Every instruction has its row in the catalog. -/
theorem catalogRow : ∀ i : Instr, Laws.CatalogRow.Statement i
  | .brk => Laws.CatalogRow.brk
  | .inx => Laws.CatalogRow.inx
  | .ldaImmediate d8 => Laws.CatalogRow.ldaImmediate d8
  | .ldaZeroPage d8 => Laws.CatalogRow.ldaZeroPage d8
  | .ldaZeroPageX d8 => Laws.CatalogRow.ldaZeroPageX d8
  | .ldaAbsolute a16 => Laws.CatalogRow.ldaAbsolute a16
  | .ldaAbsoluteX a16 => Laws.CatalogRow.ldaAbsoluteX a16
  | .ldaAbsoluteY a16 => Laws.CatalogRow.ldaAbsoluteY a16
  | .ldaIndirectX d8 => Laws.CatalogRow.ldaIndirectX d8
  | .ldaIndirectY d8 => Laws.CatalogRow.ldaIndirectY d8
  | .ldxImmediate d8 => Laws.CatalogRow.ldxImmediate d8
  | .ldxZeroPage d8 => Laws.CatalogRow.ldxZeroPage d8
  | .ldxZeroPageX d8 => Laws.CatalogRow.ldxZeroPageX d8
  | .ldxAbsolute a16 => Laws.CatalogRow.ldxAbsolute a16
  | .ldxAbsoluteY a16 => Laws.CatalogRow.ldxAbsoluteY a16
  | .staZeroPage d8 => Laws.CatalogRow.staZeroPage d8
  | .staZeroPageX d8 => Laws.CatalogRow.staZeroPageX d8
  | .staAbsolute a16 => Laws.CatalogRow.staAbsolute a16
  | .staAbsoluteX a16 => Laws.CatalogRow.staAbsoluteX a16
  | .staAbsoluteY a16 => Laws.CatalogRow.staAbsoluteY a16
  | .staIndirectX d8 => Laws.CatalogRow.staIndirectX d8
  | .staIndirectY d8 => Laws.CatalogRow.staIndirectY d8
  | .tax => Laws.CatalogRow.tax

/-- A mnemonic and a mode have one row at most (30_encoding.md R54). -/
theorem row_unique : ∀ d ∈ catalog, ∀ d' ∈ catalog, d.mnemonic = d'.mnemonic → d.mode = d'.mode → d = d' := by
  decide

theorem FitsRow.mnemonic_eq {d : Descriptor} {i : Instr} (h : FitsRow d i) : d.mnemonic = some i.mnemonic := h.1

theorem FitsRow.length_eq {d : Descriptor} {i : Instr} (h : FitsRow d i) : d.length = i.length := h.2.2

/-- The row that an instruction fits has the instruction's opcode byte. -/
theorem FitsRow.encode_eq {d : Descriptor} {i : Instr} (h : FitsRow d i) (hd : d ∈ catalog) :
    encode i = d.code :: (encode i).tail := by
  obtain ⟨hmnemonic, hmode, -⟩ := h
  obtain ⟨d', hd', hhead, hmnemonic', hmode', -⟩ := catalogRow i
  cases row_unique d hd d' hd' (hmnemonic.trans hmnemonic'.symm) (hmode.trans hmode'.symm)
  exact (List.cons_head?_tail hhead).symm

/-- The instruction that a row's format reads fits the row. -/
theorem Format.Reads.fitsRow {format : Format} {bytes rest : List Byte} {i : Instr} {d : Descriptor}
    (h : format.Reads bytes i rest) (hd : d ∈ catalog) (hf : dispatchFormat d = some format) : FitsRow d i := by
  have hrow := format_of_row hd hf
  cases format with
  | f1 j =>
    obtain ⟨rfl, -⟩ := h
    exact hrow.1
  | f2 build =>
    obtain ⟨d8, rfl, -⟩ := h
    exact hrow.1 d8
  | f3 build =>
    obtain ⟨lo, hi, rfl, -⟩ := h
    exact hrow.1 (wordOf hi lo)

/-- A row that an instruction fits dispatches to the format of its mnemonic and mode. -/
theorem FitsRow.dispatchFormat_eq {d : Descriptor} {i : Instr} (h : FitsRow d i) :
    dispatchFormat d = instrFormat i.mnemonic i.form.mode := by
  obtain ⟨hmnemonic, hmode, -⟩ := h
  rw [dispatchFormat, hmnemonic, hmode]

/-- A row of the catalog is what its byte looks up, for every `CATALOG_EXTRA`. -/
theorem lookup_row {extra : CatalogExtra} {d : Descriptor} (hd : d ∈ catalog) : lookup extra d.code = some d :=
  lookup_of_mem (List.mem_append_left _ hd)

/-- A hit that has an arm is a row of the catalog. -/
theorem lookup_mem_of_arm {extra : CatalogExtra} {op : Byte} {d : Descriptor} {format : Format}
    (hl : lookup extra op = some d) (hf : dispatchFormat d = some format) : d ∈ catalog ∧ d.code = op :=
  (lookup_cases hl).resolve_right fun hnone => by simp [dispatchFormat_of_no_mnemonic hnone] at hf

/-- Decoding an encoding gives the instruction back. -/
theorem decodeWith_encode (extra : CatalogExtra) (i : Instr) (rest : List Byte) :
    decodeWith extra (encode i ++ rest) = .ok (i, rest) := by
  obtain ⟨d, hd, -, hmnemonic, hmode, hlen, hlen'⟩ := catalogRow i
  have hfit : FitsRow d i := ⟨hmnemonic, hmode, hlen.trans hlen'⟩
  obtain ⟨format, hf, hreads⟩ := instrFormat_reads_iff i
  rw [hfit.encode_eq hd, List.cons_append]
  exact decodeWith_cons_ok_iff.mpr
    ⟨d, format, lookup_row hd, hfit.dispatchFormat_eq.trans hf, (hreads _ _).mpr rfl⟩

/-- Bytes that decode begin with the encoding of what they decode to. -/
theorem eq_encode_of_decodeWith {extra : CatalogExtra} {bytes rest : List Byte} {i : Instr}
    (h : decodeWith extra bytes = .ok (i, rest)) : bytes = encode i ++ rest := by
  cases bytes with
  | nil => cases h
  | cons op bytes =>
    obtain ⟨d, format, hl, hf, hreads⟩ := decodeWith_cons_ok_iff.mp h
    obtain ⟨hd, rfl⟩ := lookup_mem_of_arm hl hf
    have hfit := hreads.fitsRow hd hf
    obtain ⟨format', hf', hreads'⟩ := instrFormat_reads_iff i
    cases hf.symm.trans (hfit.dispatchFormat_eq.trans hf')
    rw [hfit.encode_eq hd, (hreads' _ _).mp hreads, List.cons_append]

/-- Settles O1: each direction through the format of the instruction's row. -/
theorem decodeReadsExactlyEncodings : Obligations.DecodeReadsExactlyEncodings := by
  intro extra bytes rest i
  constructor
  · exact eq_encode_of_decodeWith
  · rintro rfl
    exact decodeWith_encode extra i rest

/-- Settles O2: each word is the encoding of its instruction. -/
theorem documentedWordsDecode : Obligations.DocumentedWordsDecode := by
  have hdecode (i : Instr) : decode (encode i ++ []) = .ok (i, []) := decodeWith_encode _ i []
  exact ⟨hdecode .brk, hdecode (.ldaImmediate 0xC0#8), hdecode (.ldaZeroPage 0x10#8), hdecode .tax, hdecode .inx,
    hdecode (.staAbsolute 0x0200#16), hdecode (.ldxAbsoluteY 0x02F0#16), hdecode (.ldaIndirectX 0x20#8)⟩

end Sys2Proof
end

section
/-!
PROOF. The machine's step against the pseudocode of 41_engine.md R90.
-/

namespace Sys2Proof.Machine

variable {extra : CatalogExtra} {s : State} {d : Descriptor}

/-- Outside phase Running a step is stuck by name. -/
theorem stepWith_of_not_running (h : s.phase ≠ .running) : stepWith extra s = .fault (.notEnabled s.phase) := by
  unfold stepWith
  split
  · contradiction
  all_goals simp only [*]

/-- Settles O7: the phase is tested before anything is fetched. -/
theorem stepEnabledOnlyWhenRunning : Obligations.StepEnabledOnlyWhenRunning :=
  fun _ _ => stepWith_of_not_running

/-- Every instruction answers a next state. -/
theorem exec_answers (i : Instr) (s : State) : ∃ t, exec i s = .next t := by
  rcases exec_cases i s with ⟨-, hbrk⟩ | ⟨w, -, hadv⟩
  · exact ⟨_, hbrk⟩
  · rcases secondAdvance_cases (len := i.length) (s := w) with ⟨-, hok⟩ | ⟨-, hfault⟩
    · exact ⟨_, hadv.trans hok⟩
    · exact ⟨_, hadv.trans hfault⟩

/-- In phase Running every step answers a next state. -/
theorem stepWith_answers (h : s.phase = .running) : ∃ t, stepWith extra s = .next t := by
  rw [stepWith_running h]
  cases fetch extra s with
  | instr i s1 => exact exec_answers i s1
  | raised s1 => exact ⟨s1, rfl⟩

/-- The second advance is step 5 of the pseudocode, for a length that counts the opcode byte. -/
theorem secondAdvance_eq_ruleAdvance {length : Nat} (hlen : 1 ≤ length) (s : State) :
    secondAdvance length s = .next (ruleAdvance length s) := by
  unfold ruleAdvance
  split
  · next h => rw [secondAdvance_error h, Nat.add_sub_assoc hlen]
  · next h => rw [secondAdvance_ok (by omega)]; rfl

/-- An instruction's length counts its opcode byte (30_encoding.md R51). -/
theorem instr_length_pos (i : Instr) : 1 ≤ i.length := by
  have hmode : ∀ mode : Mode, 1 ≤ mode.length := by rintro (_ | _) <;> decide
  exact hmode _

/-- The pseudocode's first advance at the top of memory (41_engine.md R92). -/
theorem ruleStep_top (hpc : s.pc = 0xFFFF#16) : ruleStep extra s = raise (.outOfRange 0x10000) s := if_pos hpc

/-- The pseudocode on a byte without a descriptor (R93). -/
theorem ruleStep_miss (hpc : s.pc ≠ 0xFFFF#16) (hl : lookup extra (Memory.read s.mem s.pc) = none) :
    ruleStep extra s =
      raise (.unrecognizedOpcode (Memory.read s.mem s.pc) s.pc) { s with pc := s.pc + 1#16 } := by
  simp only [ruleStep, if_neg hpc, hl, BitVec.add_sub_cancel]

/-- The pseudocode on a descriptor without an arm (R94). -/
theorem ruleStep_noArm (hpc : s.pc ≠ 0xFFFF#16) (hl : lookup extra (Memory.read s.mem s.pc) = some d)
    (hm : d.mnemonic = none) :
    ruleStep extra s =
      raise (.notImplemented (Memory.read s.mem s.pc) s.pc) { s with pc := s.pc + 1#16 } := by
  simp only [ruleStep, if_neg hpc, hl, hm, BitVec.add_sub_cancel]

/-- The pseudocode on BRK (42_brk.md R110). -/
theorem ruleStep_brk (hpc : s.pc ≠ 0xFFFF#16) (hl : lookup extra (Memory.read s.mem s.pc) = some d)
    (hm : d.mnemonic = some .brk) : ruleStep extra s = halt { s with pc := s.pc + 1#16 } := by
  simp only [ruleStep, if_neg hpc, hl, hm]

/-- The pseudocode where the resolver faults (40_addressing.md R84). -/
theorem ruleStep_resolverFault {e : RaisedError} (hpc : s.pc ≠ 0xFFFF#16)
    (hl : lookup extra (Memory.read s.mem s.pc) = some d)
    (hm : d.mnemonic = some .lda ∨ d.mnemonic = some .ldx ∨ d.mnemonic = some .sta)
    (he : ({ s with pc := s.pc + 1#16 } : State).effectiveAddress d.mode = .error e) :
    ruleStep extra s = raise e { s with pc := s.pc + 1#16 } := by
  rcases hm with hm | hm | hm <;> simp only [ruleStep, if_neg hpc, hl, hm, he]

/-- The value that a load takes through its operand is the byte at the address that the resolver gives. -/
theorem effectiveAddress_of_operandValue {s : State} {mode : Mode} {form : OperandForm} {v : Byte}
    (hform : assemble mode s.pc s.mem = .ok form) (hv : s.operandValue form = .ok v) :
    ∃ ea, s.effectiveAddress mode = .ok ea ∧ v = Memory.read s.mem ea := by
  rw [operandValue_of_assemble hform] at hv
  split at hv
  · next ea hea =>
    cases hv
    exact ⟨ea, hea, rfl⟩
  · cases hv

/-- The pseudocode on a row with any other arm: what the operation writes, and then step 5. -/
theorem ruleStep_of_wrote {i : Instr} {w : State} (hpc : s.pc ≠ 0xFFFF#16)
    (hl : lookup extra (Memory.read s.mem s.pc) = some d) (hfit : FitsRow d i)
    (hform : assemble d.mode (s.pc + 1#16) s.mem = .ok i.form) (hw : Wrote i { s with pc := s.pc + 1#16 } w) :
    ruleStep extra s = ruleAdvance d.length w := by
  have hm := hfit.mnemonic_eq
  rcases hw with ⟨hi, v, hv, rfl⟩ | ⟨hi, v, hv, rfl⟩ | ⟨rfl, rfl⟩ | ⟨rfl, rfl⟩ | ⟨hi, ea, hea, rfl⟩
  · obtain ⟨ea, hea, rfl⟩ := effectiveAddress_of_operandValue (s := { s with pc := s.pc + 1#16 }) hform hv
    rw [hi] at hm
    simp only [ruleStep, if_neg hpc, hl, hm, hea]
    rfl
  · obtain ⟨ea, hea, rfl⟩ := effectiveAddress_of_operandValue (s := { s with pc := s.pc + 1#16 }) hform hv
    rw [hi] at hm
    simp only [ruleStep, if_neg hpc, hl, hm, hea]
    rfl
  · simp only [ruleStep, if_neg hpc, hl, hm, Instr.mnemonic]
    rfl
  · simp only [ruleStep, if_neg hpc, hl, hm, Instr.mnemonic]
    rfl
  · rw [← effectiveAddress_of_assemble (s := { s with pc := s.pc + 1#16 }) hform] at hea
    rw [hi] at hm
    simp only [ruleStep, if_neg hpc, hl, hm, hea]
    rfl

/-- A three-byte row is a load or a store in an absolute mode, whose operand word cannot be read at the top of memory. -/
theorem absolute_of_length_three : ∀ d ∈ catalog, d.length = 3 →
    (d.mnemonic = some .lda ∨ d.mnemonic = some .ldx ∨ d.mnemonic = some .sta) ∧
      d.mode ∈ [Mode.absolute, .absoluteX, .absoluteY] := by decide

/-- The resolver's fault on an operand word at the top of memory (40_addressing.md R75 to R77). -/
theorem effectiveAddress_absolute_top {mode : Mode} (h : mode ∈ [Mode.absolute, .absoluteX, .absoluteY]) (x y : Byte)
    (mem : Memory) : effectiveAddress mode 0xFFFF#16 x y mem = .error (.outOfRange 0x10000) := by
  obtain ⟨-, habs⟩ := resolverAbsoluteModes 0xFFFF#16 x y mem
  obtain ⟨habs, habsX, habsY⟩ := habs rfl
  simp only [List.mem_cons, List.not_mem_nil, or_false] at h
  rcases h with rfl | rfl | rfl
  · exact habs
  · exact habsX
  · exact habsY

/-- In phase Running the step is the pseudocode's. -/
theorem stepWith_eq_ruleStep (hrun : s.phase = .running) : stepWith extra s = .next (ruleStep extra s) := by
  obtain ⟨t, ht⟩ := stepWith_answers (extra := extra) hrun
  rw [ht]
  congr 1
  obtain ⟨-, ⟨hpc, rfl⟩ | ⟨hpc, hl, rfl⟩ | ⟨d, hpc, hl, hm, rfl⟩ | ⟨d, hpc, hl, hd, -, hlen, htop, rfl⟩ |
    ⟨d, i, hpc, hl, -, -, hfit, -, hform, hexec⟩⟩ := stepWith_cases ht
  · exact (ruleStep_top hpc).symm
  · exact (ruleStep_miss hpc hl).symm
  · exact (ruleStep_noArm hpc hl hm).symm
  · obtain ⟨hm, hmode⟩ := absolute_of_length_three d hd hlen
    refine (ruleStep_resolverFault hpc hl hm ?_).symm
    rw [State.effectiveAddress, htop]
    exact effectiveAddress_absolute_top hmode ..
  · rcases exec_cases i { s with pc := s.pc + 1#16 } with ⟨rfl, hbrk⟩ | ⟨w, hw, hadv⟩
    · cases hbrk.symm.trans hexec
      exact (ruleStep_brk hpc hl hfit.mnemonic_eq).symm
    · rw [secondAdvance_eq_ruleAdvance (instr_length_pos i)] at hadv
      cases hadv.symm.trans hexec
      rw [ruleStep_of_wrote hpc hl hfit hform hw, hfit.length_eq]

/-- Settles O8: outside Running the step is stuck, and in Running it is the pseudocode's. -/
theorem stepIsTheSpecPseudocode : Obligations.StepIsTheSpecPseudocode := by
  intro extra s t
  by_cases hrun : s.phase = .running
  · rw [stepWith_eq_ruleStep hrun]
    simp [hrun, eq_comm]
  · simp [stepWith_of_not_running hrun, hrun]

end Sys2Proof.Machine
end

section
/-!
SUPPORT. The state that an instruction or a step ends in, said once for the statements about every step.
-/

namespace Sys2Proof.Machine

variable {extra : CatalogExtra} {i : Instr} {s t : State}

/-- An instruction halts as BRK, completes its second advance, or faults in it. -/
theorem exec_end_cases (h : exec i s = .next t) :
    (i = .brk ∧ t = halt s) ∨
    (∃ w, Wrote i s w ∧ s.pc.toNat + (i.length - 1) ≤ 0xFFFF ∧ t = w.setPc (s.pc + BitVec.ofNat 16 (i.length - 1))) ∨
    (∃ w, Wrote i s w ∧ 0xFFFF < s.pc.toNat + (i.length - 1) ∧
      t = raise (.outOfRange (s.pc.toNat + (i.length - 1))) w) := by
  rcases exec_cases i s with ⟨hi, hbrk⟩ | ⟨w, hw, hadv⟩
  · cases hbrk.symm.trans h
    exact .inl ⟨hi, rfl⟩
  · obtain ⟨-, hpc, -, -⟩ := hw.keeps
    rcases secondAdvance_cases (len := i.length) (s := w) with ⟨hle, hok⟩ | ⟨hlt, hfault⟩
    · cases (hadv.trans hok).symm.trans h
      exact .inr (.inl ⟨w, hw, by rwa [hpc] at hle, by rw [hpc]⟩)
    · cases (hadv.trans hfault).symm.trans h
      exact .inr (.inr ⟨w, hw, by rwa [hpc] at hlt, by rw [hpc]⟩)

/-- An instruction halts where it is, or goes on in its phase, without a new error, by the rest of its length. -/
theorem exec_halts_or_advances (h : exec i s = .next t) :
    (t.phase = .halted ∧ t.pc = s.pc) ∨
    (t.phase = s.phase ∧ t.err = s.err ∧ t.pc.toNat = s.pc.toNat + (i.length - 1)) := by
  rcases exec_end_cases h with ⟨-, rfl⟩ | ⟨w, hw, hle, rfl⟩ | ⟨w, hw, -, rfl⟩
  · exact .inl ⟨rfl, rfl⟩
  · obtain ⟨-, -, hphase, herr⟩ := hw.keeps
    exact .inr ⟨hphase, herr, advance_pc (s' := s.setPc _) (advance_ok hle)⟩
  · obtain ⟨-, hpc, -, -⟩ := hw.keeps
    exact .inl ⟨rfl, hpc⟩

/-- A step ends in a fault of its first half, which changes nothing but PC, or as the instruction it runs at PC + 1. -/
theorem stepWith_raised_or_exec (h : stepWith extra s = .next t) :
    (∃ e pc, t = raise e { s with pc := pc }) ∨
    (s.pc ≠ 0xFFFF#16 ∧ ∃ i, exec i { s with pc := s.pc + 1#16 } = .next t) := by
  obtain ⟨-, ⟨-, rfl⟩ | ⟨-, -, rfl⟩ | ⟨_, -, -, -, rfl⟩ | ⟨_, -, -, -, -, -, -, rfl⟩ | ⟨_, i, hpc, -, -, -, -, -, -, hexec⟩⟩ :=
    stepWith_cases h
  · exact .inl ⟨_, s.pc, rfl⟩
  · exact .inl ⟨_, _, rfl⟩
  · exact .inl ⟨_, _, rfl⟩
  · exact .inl ⟨_, _, rfl⟩
  · exact .inr ⟨hpc, i, hexec⟩

/-- A step halts, or goes on without a new error at a higher PC (41_engine.md R103). -/
theorem stepWith_halts_or_advances (h : stepWith extra s = .next t) :
    t.phase = .halted ∨ (t.phase = .running ∧ t.err = s.err ∧ s.pc.toNat < t.pc.toNat) := by
  obtain ⟨hrun, -⟩ := stepWith_cases h
  rcases stepWith_raised_or_exec h with ⟨e, pc, rfl⟩ | ⟨hpc, i, hexec⟩
  · exact .inl rfl
  · rcases exec_halts_or_advances hexec with ⟨hhalt, -⟩ | ⟨hphase, herr, hadv⟩
    · exact .inl hhalt
    · change _ = (s.pc + 1#16).toNat + _ at hadv
      rw [pc_add_one hpc] at hadv
      exact .inr ⟨hphase.trans hrun, herr, by omega⟩

end Sys2Proof.Machine
end

section
/-!
PROOF. The invariant is kept by every step (60_exceptions.md R158, 20_memory.md section 1).
-/

namespace Sys2Proof.Machine

variable {i : Instr} {s t w : State}

/-- A raise keeps the invariant: the error it latches goes with Halted. -/
theorem inv_raise (h : Memory.wf s.mem = true) (e : RaisedError) : Inv (raise e s) :=
  ⟨h, fun _ => rfl⟩

/-- An operation keeps the canonical form. -/
theorem Wrote.memory_wf (hw : Wrote i s w) (h : Memory.wf s.mem = true) : Memory.wf w.mem = true := by
  rcases hw.memory with hmem | ⟨-, ea, -, hmem⟩ <;> rw [hmem]
  · exact h
  · exact Memory.write_wf h ea s.a

/-- An instruction keeps the invariant. -/
theorem exec_inv (h : exec i s = .next t) (hs : Inv s) : Inv t := by
  rcases exec_end_cases h with ⟨-, rfl⟩ | ⟨w, hw, -, rfl⟩ | ⟨w, hw, -, rfl⟩
  · exact ⟨hs.memory, fun _ => rfl⟩
  · obtain ⟨-, -, hphase, herr⟩ := hw.keeps
    refine ⟨hw.memory_wf hs.memory, ?_⟩
    rw [setPc_phase, setPc_err, hphase, herr]
    exact hs.latch
  · exact inv_raise (hw.memory_wf hs.memory) _

/-- A step keeps the invariant. -/
theorem stepWith_inv {extra : CatalogExtra} (h : stepWith extra s = .next t) (hs : Inv s) : Inv t := by
  rcases stepWith_raised_or_exec h with ⟨e, pc, rfl⟩ | ⟨-, i, hexec⟩
  · exact inv_raise (s := { s with pc := pc }) hs.memory e
  · exact exec_inv hexec ⟨hs.memory, hs.latch⟩

/-- Settles O34: a fault of the first half raises, and every instruction keeps the invariant. -/
theorem stepKeepsInvariant : Obligations.StepKeepsInvariant :=
  fun _ _ _ hs h => stepWith_inv h hs

/-- Settles O35: the memory is empty and there is no error. -/
theorem resetMeetsInvariant : Obligations.ResetMeetsInvariant :=
  ⟨rfl, fun herr => absurd rfl herr⟩

end Sys2Proof.Machine
end

section
/-!
PROOF. BRK, and the good end of a run (42_brk.md R110, 41_engine.md R99).
-/

namespace Sys2Proof.Machine

variable {extra : CatalogExtra} {i : Instr} {s t : State}

/-- The opcode byte of BRK is a key of every catalog. -/
theorem lookup_brk : lookup extra 0x00#8 = some ⟨0x00#8, some .brk, .noneAddressing, 1⟩ :=
  lookup_row (d := ⟨0x00#8, some .brk, .noneAddressing, 1⟩) (by decide)

/-- A step over the byte of BRK makes the first advance and halts. -/
theorem stepWith_brk (hrun : s.phase = .running) (hpc : s.pc ≠ 0xFFFF#16) (hop : Memory.read s.mem s.pc = 0x00#8) :
    stepWith extra s = .next { s with pc := s.pc + 1#16, phase := .halted } :=
  stepWith_of_fetch_instr hrun (fetch_of_one_byte hpc (hop ▸ lookup_brk) rfl)

/-- The only instruction that ends a run well: the others go on, or latch an error. -/
theorem eq_brk_of_exec_goodEnd (hrun : s.phase = .running) (h : exec i s = .next t) (hgood : GoodEnd t) : i = .brk := by
  obtain ⟨hhalt, herr⟩ := hgood
  rcases exec_end_cases h with ⟨hi, -⟩ | ⟨w, hw, -, rfl⟩ | ⟨w, -, -, rfl⟩
  · exact hi
  · obtain ⟨-, -, hphase, -⟩ := hw.keeps
    rw [setPc_phase, hphase, hrun] at hhalt
    cases hhalt
  · cases herr

/-- Settles O11: BRK's meaning is `halt`, and its byte has no operand. -/
theorem brkHalts : Obligations.BrkHalts :=
  ⟨rfl, fun s => ⟨halt s, rfl, rfl, fun herr => ⟨rfl, herr⟩⟩, fun _ _ _ hrun _ => eq_brk_of_exec_goodEnd hrun,
    fun _ => stepWith_brk⟩

/-- A step ends the run well exactly over the byte of BRK below the top of memory. -/
theorem stepWith_goodEnd_iff (hs : s.err = none) (h : stepWith extra s = .next t) :
    GoodEnd t ↔ Memory.read s.mem s.pc = 0x00#8 ∧ s.pc ≠ 0xFFFF#16 := by
  obtain ⟨hrun, hcases⟩ := stepWith_cases h
  constructor
  · intro hgood
    rcases hcases with ⟨-, rfl⟩ | ⟨-, -, rfl⟩ | ⟨_, -, -, -, rfl⟩ | ⟨_, -, -, -, -, -, -, rfl⟩ |
      ⟨d, i, hpc, -, hd, hcode, hfit, -, -, hexec⟩
    · cases hgood.2
    · cases hgood.2
    · cases hgood.2
    · cases hgood.2
    · obtain rfl := eq_brk_of_exec_goodEnd (by exact hrun) hexec hgood
      obtain ⟨hbyte, -⟩ := List.cons.inj (hfit.encode_eq hd)
      exact ⟨hcode ▸ hbyte.symm, hpc⟩
  · rintro ⟨hop, hpc⟩
    cases (stepWith_brk hrun hpc hop).symm.trans h
    exact ⟨rfl, hs⟩

/-- Settles O40, at the default `CATALOG_EXTRA`. -/
theorem goodEndExactlyAfterBrk : Obligations.GoodEndExactlyAfterBrk :=
  fun _ _ => stepWith_goodEnd_iff

end Sys2Proof.Machine
end

section
/-!
PROOF. Every run ends: the PC rises with each step that goes on (41_engine.md R100, R103).
-/

namespace Sys2Proof.Machine

variable {extra : CatalogExtra}

/-- From a running state the run makes `n` steps that leave it Running, in `u`, and then one that halts it, in `t`; there are at most as
many as addresses from PC upward, and a budget that covers them changes nothing. Going on latches no error. -/
structure RunEnds (extra : CatalogExtra) (s : State) (n : Nat) (u t : State) : Prop where
  bound    : n + 1 ≤ 65536 - s.pc.toNat
  steps    : stepsWhileRunning extra n s = .next u
  running  : u.phase = .running
  noError  : u.err = s.err
  lastStep : stepWith extra u = .next t
  halted   : t.phase = .halted
  budget   : ∀ budget, n + 1 ≤ budget → stepsWhileRunning extra budget s = .next t

/-- A run whose first step halts it. -/
theorem RunEnds.of_halts {s t : State} (hrun : s.phase = .running) (ht : stepWith extra s = .next t)
    (hhalt : t.phase = .halted) : RunEnds extra s 0 s t := by
  refine ⟨by have := s.pc.isLt; omega, rfl, hrun, rfl, ht, hhalt, fun budget hbudget => ?_⟩
  obtain ⟨b, rfl⟩ := Nat.exists_eq_add_of_le' hbudget
  rw [← Nat.add_assoc, stepsWhileRunning_step hrun ht]
  exact stepsWhileRunning_idle (by simp [hhalt])

/-- A run whose first step goes on at a higher PC. -/
theorem RunEnds.of_advances {s s' u t : State} {n : Nat} (hrun : s.phase = .running) (hstep : stepWith extra s = .next s')
    (herr : s'.err = s.err) (hpc : s.pc.toNat < s'.pc.toNat) (h : RunEnds extra s' n u t) :
    RunEnds extra s (n + 1) u t := by
  obtain ⟨hn, hsteps, hu, huerr, ht, hhalt, hbudgets⟩ := h
  refine ⟨by omega, ?_, hu, huerr.trans herr, ht, hhalt, fun budget hbudget => ?_⟩
  · rw [stepsWhileRunning_step hrun hstep, hsteps]
  · obtain ⟨b, rfl⟩ := Nat.exists_eq_add_of_le' hbudget
    rw [← Nat.add_assoc, stepsWhileRunning_step hrun hstep]
    exact hbudgets _ (by omega)

/-- Every run ends, by induction on the addresses above PC. -/
theorem exists_runEnds (s : State) (hrun : s.phase = .running) : ∃ n u t, RunEnds extra s n u t := by
  obtain ⟨s', hs'⟩ := stepWith_answers (extra := extra) hrun
  rcases stepWith_halts_or_advances hs' with hhalt | ⟨hrun', herr, hpc⟩
  · exact ⟨0, s, s', .of_halts hrun hs' hhalt⟩
  · obtain ⟨n, u, t, hends⟩ := exists_runEnds s' hrun'
    exact ⟨n + 1, u, t, hends.of_advances hrun hs' herr hpc⟩
termination_by 65536 - s.pc.toNat
decreasing_by have := s'.pc.isLt; omega

/-- A halted state is a good or a faulted end (41_engine.md R99). -/
theorem faultedEnd_or_goodEnd {t : State} (h : t.phase = .halted) : FaultedEnd t ∨ GoodEnd t := by
  by_cases herr : t.err = none
  · exact .inr ⟨h, herr⟩
  · exact .inl ⟨h, herr⟩

/-- Settles O46: the run from the phase change ends, `execute`'s budget covers it, and its last step ends well only over BRK. -/
theorem executeAlwaysEnds : Obligations.ExecuteAlwaysEnds := by
  intro extra s hphase
  obtain ⟨n, u, t, hn, hsteps, hu, huerr, ht, hhalt, hbudgets⟩ :=
    exists_runEnds (extra := extra) { s with phase := .running } rfl
  refine ⟨n, u, t, hn, hsteps, hu, ht, ?_, hhalt, fun herr => ?_⟩
  · rw [hostExecuteWith, hostExecuteWithin, if_pos hphase]
    exact hbudgets Config.fuel (hn.trans (Nat.sub_le _ _))
  · refine (faultedEnd_or_goodEnd hhalt).imp_right fun hgood => ⟨hgood, ?_⟩
    exact (stepWith_goodEnd_iff (huerr.trans herr) ht).mp hgood

end Sys2Proof.Machine
end

section
/-!
PROOF. The step at the top of memory (41_engine.md R92, 40_addressing.md R84).
-/

namespace Sys2Proof.Machine

/-- Settles O9: the pseudocode's first advance faults before the lookup. -/
theorem opcodeAtTopFaults : Obligations.OpcodeAtTopFaults :=
  fun _ _ hrun hpc => (stepWith_eq_ruleStep hrun).trans (congrArg _ (ruleStep_top hpc))

/-- The eight opcodes with an operand word. -/
theorem exists_row_of_length_three :
    ∀ op ∈ [0xAD#8, 0xBD#8, 0xB9#8, 0xAE#8, 0xBE#8, 0x8D#8, 0x9D#8, 0x99#8], ∃ d ∈ catalog, d.code = op ∧ d.length = 3 := by
  decide

/-- Settles O10: the opcode's row has an absolute mode, whose operand word cannot be read at 0xFFFF. -/
theorem operandWordAtTopFaults : Obligations.OperandWordAtTopFaults := by
  intro s hrun hpc hop
  obtain ⟨d, hd, hcode, hlen⟩ := exists_row_of_length_three _ hop
  obtain ⟨hm, hmode⟩ := absolute_of_length_three d hd hlen
  have hadv : s.pc + 1#16 = 0xFFFF#16 := by rw [hpc]; rfl
  have hl : lookup CatalogExtra.default (Memory.read s.mem s.pc) = some d := by rw [hpc, ← hcode, lookup_row hd]
  have he : ({ s with pc := s.pc + 1#16 } : State).effectiveAddress d.mode = .error (.outOfRange 0x10000) := by
    rw [State.effectiveAddress, hadv]
    exact effectiveAddress_absolute_top hmode ..
  have hrule := ruleStep_resolverFault (by rw [hpc]; decide) hl hm he
  rw [hadv] at hrule
  exact (stepWith_eq_ruleStep hrun).trans (congrArg _ hrule)

end Sys2Proof.Machine
end

section
/-!
PROOF. The step on bytes that decode to an instruction (41_engine.md R90 to R94; log 13).
-/

namespace Sys2Proof.Machine

variable {extra : CatalogExtra} {s : State} {i : Instr} {rest : List Byte}

/-- The bytes from PC upward: the opcode, a byte after it, and the third byte unless the second is the last of memory. -/
theorem bytesAtPc_eq (hpc : s.pc ≠ 0xFFFF#16) :
    bytesAtPc s = Memory.read s.mem s.pc :: Memory.read s.mem (s.pc + 1#16) ::
      if s.pc + 1#16 = 0xFFFF#16 then [] else [Memory.read s.mem (s.pc + 1#16 + 1#16)] := by
  have hone := pc_add_one hpc
  have hlt := (s.pc + 1#16).isLt
  by_cases htop : s.pc + 1#16 = 0xFFFF#16
  · have hnat : (s.pc + 1#16).toNat = 0xFFFF := by rw [htop]; rfl
    have hbyte : s.pc.toNat = 0xFFFE := by omega
    simp [bytesAtPc, List.range_succ, Config.memSize, Memory.read, htop, hbyte]
  · have htwo := pc_add_one (s := { s with pc := s.pc + 1#16 }) htop
    simp only at htwo
    have hlt' := (s.pc + 1#16 + 1#16).isLt
    have h0 : s.pc.toNat < 65536 := by omega
    have h1 : s.pc.toNat + 1 < 65536 := by omega
    have h2 : s.pc.toNat + 2 < 65536 := by omega
    simp [bytesAtPc, List.range_succ, Config.memSize, Memory.read, hone, htwo, htop, h0, h1, h2]

/-- An opcode with an arm goes on to its operand (41_engine.md R94). -/
theorem fetch_of_arm {d : Descriptor} {format : Format} (hpc : s.pc ≠ 0xFFFF#16)
    (hl : lookup extra (Memory.read s.mem s.pc) = some d) (hf : dispatchFormat d = some format) :
    fetch extra s = fetchOperand format { s with pc := s.pc + 1#16 } := by
  simp only [fetch, advance_one hpc, hl, hf]

/-- The operand that a format reads off the bytes after the opcode is the one that the first half of the step reads from memory. -/
theorem fetchOperand_of_reads {format : Format} (hpc : s.pc ≠ 0xFFFF#16)
    (h : format.Reads (bytesAtPc s).tail i rest) :
    fetchOperand format { s with pc := s.pc + 1#16 } = .instr i { s with pc := s.pc + 1#16 } := by
  rw [bytesAtPc_eq hpc, List.tail_cons] at h
  cases format with
  | f1 j =>
    obtain ⟨rfl, -⟩ := h
    rfl
  | f2 build =>
    obtain ⟨d8, rfl, hbytes⟩ := h
    obtain ⟨rfl, -⟩ := List.cons.inj hbytes
    rfl
  | f3 build =>
    obtain ⟨lo, hi, rfl, hbytes⟩ := h
    by_cases htop : s.pc + 1#16 = 0xFFFF#16
    · simp [htop] at hbytes
    · rw [if_neg htop] at hbytes
      obtain ⟨rfl, htail⟩ := List.cons.inj hbytes
      obtain ⟨rfl, -⟩ := List.cons.inj htail
      simp only [fetchOperand, Memory.readWord_ok s.mem htop]

/-- Settles O6: what the decoder reads off the bytes at PC is what the first half of the step fetches. -/
theorem stepRunsDecodedInstruction : Obligations.StepRunsDecodedInstruction := by
  intro s i rest hrun hpc hdecode
  have hbytes : bytesAtPc s = Memory.read s.mem s.pc :: (bytesAtPc s).tail := by rw [bytesAtPc_eq hpc, List.tail_cons]
  rw [hbytes] at hdecode
  obtain ⟨d, format, hl, hf, hreads⟩ := decodeWith_cons_ok_iff.mp hdecode
  exact stepWith_of_fetch_instr hrun ((fetch_of_arm hpc hl hf).trans (fetchOperand_of_reads hpc hreads))

end Sys2Proof.Machine
end

section
/-!
PROOF. The frames of the two families, and what no step writes (44_lda.md to 47_tax.md, 10_state.md R13, R18).
-/

namespace Sys2Proof.Machine

variable {i : Instr} {s t w : State}

/-- SetZN leaves the reserved bits (10_state.md R18). -/
theorem setZN_and_reservedBits (p r : Byte) : setZN p r &&& reservedBits = p &&& reservedBits := by
  have hreserved : ∀ k < 8, reservedBits.getLsbD k = (!decide (k = 7) && !decide (k = 1)) := by decide
  apply BitVec.eq_of_getLsbD_eq
  intro k hk
  rw [BitVec.getLsbD_and, BitVec.getLsbD_and, setZN_getLsbD p r k hk, hreserved k hk]
  split
  · simp [*]
  · split <;> simp [*]

/-- An instruction leaves the reserved bits of P. -/
theorem exec_reservedBits (h : exec i s = .next t) : t.p &&& reservedBits = s.p &&& reservedBits := by
  rcases exec_status h with ⟨-, hp⟩ | ⟨-, hp⟩ | ⟨-, hp⟩ <;> rw [hp]
  · exact setZN_and_reservedBits ..
  · exact setZN_and_reservedBits ..

/-- An instruction leaves Y. -/
theorem exec_y (h : exec i s = .next t) : t.y = s.y := by
  rcases exec_next_cases h with ⟨-, rfl⟩ | ⟨w, hw, -, -, hy, -, -, -⟩
  · rfl
  · exact hy.trans hw.keeps.1

/-- Settles O38: no fault and no instruction writes Y or a reserved bit. -/
theorem stepKeepsYAndReservedBits : Obligations.StepKeepsYAndReservedBits := by
  intro extra s t h
  rcases stepWith_raised_or_exec h with ⟨e, pc, rfl⟩ | ⟨-, i, hexec⟩
  · exact ⟨rfl, rfl⟩
  · exact ⟨exec_y (s := { s with pc := s.pc + 1#16 }) hexec, exec_reservedBits (s := { s with pc := s.pc + 1#16 }) hexec⟩

/-- Only LDA writes A, and LDA and STA do not write X. -/
theorem Wrote.registers (hw : Wrote i s w) :
    (i.mnemonic ≠ .lda → w.a = s.a) ∧ (i.mnemonic = .lda ∨ i.mnemonic = .sta → w.x = s.x) := by
  rcases hw with ⟨hm, v, -, rfl⟩ | ⟨hm, v, -, rfl⟩ | ⟨rfl, rfl⟩ | ⟨rfl, rfl⟩ | ⟨hm, ea, -, rfl⟩
  · exact ⟨fun hne => absurd hm hne, fun _ => rfl⟩
  · exact ⟨fun _ => rfl, by simp [hm]⟩
  · exact ⟨fun _ => rfl, by simp [Instr.mnemonic]⟩
  · exact ⟨fun _ => rfl, by simp [Instr.mnemonic]⟩
  · exact ⟨fun _ => rfl, fun _ => rfl⟩

/-- An instruction other than BRK changes phase and latch only by a fault. -/
theorem exec_keepsEngine (hm : i.mnemonic ≠ .brk) (h : exec i s = .next t) : KeepsEngine s t := by
  rcases exec_next_cases h with ⟨rfl, -⟩ | ⟨w, hw, -, -, -, -, -, hengine⟩
  · exact absurd rfl hm
  · obtain ⟨-, -, hphase, herr⟩ := hw.keeps
    rwa [KeepsEngine, hphase, herr] at hengine

/-- Memory after an instruction: kept, or A stored at the operand's address by a STA. -/
theorem exec_memory (h : exec i s = .next t) :
    t.mem = s.mem ∨ (i.mnemonic = .sta ∧ ∃ ea, s.addressOf i.form = .ok ea ∧ t.mem = Memory.write s.mem ea s.a) := by
  rcases exec_next_cases h with ⟨-, rfl⟩ | ⟨w, hw, -, -, -, -, hmem, -⟩
  · exact .inl rfl
  · rw [hmem]
    exact hw.memory

/-- The registers that an instruction does not write. -/
theorem exec_registers (h : exec i s = .next t) :
    (i.mnemonic ≠ .lda → t.a = s.a) ∧ (i.mnemonic = .lda ∨ i.mnemonic = .sta → t.x = s.x) := by
  rcases exec_next_cases h with ⟨-, rfl⟩ | ⟨w, hw, ha, hx, -, -, -, -⟩
  · exact ⟨fun _ => rfl, fun _ => rfl⟩
  · rw [ha, hx]
    exact hw.registers

/-- Settles O22, field by field. -/
theorem registerInstructionFrame : Obligations.RegisterInstructionFrame := by
  intro i s t hm h
  have hbrk : i.mnemonic ≠ .brk := by rintro heq; simp [heq] at hm
  have hsta : i.mnemonic ≠ .sta := by rintro heq; simp [heq] at hm
  obtain ⟨ha, hx⟩ := exec_registers h
  have hmem : t.mem = s.mem := (exec_memory h).resolve_right fun hstore => hsta hstore.1
  exact ⟨exec_y h, exec_reservedBits h, fun b => by rw [hmem], fun hlda => hx (.inl hlda), ha, exec_keepsEngine hbrk h⟩

/-- A STA stores A at its operand's address, whatever becomes of its second advance. -/
theorem exec_store (hm : i.mnemonic = .sta) (h : exec i s = .next t) :
    ∃ ea, s.addressOf i.form = .ok ea ∧ t.mem = Memory.write s.mem ea s.a := by
  rcases exec_next_cases h with ⟨rfl, -⟩ | ⟨w, hw, -, -, -, -, hmem, -⟩
  · cases hm
  · rcases hw with ⟨hm', -⟩ | ⟨hm', -⟩ | ⟨rfl, -⟩ | ⟨rfl, -⟩ | ⟨-, ea, hea, rfl⟩
    · cases hm.symm.trans hm'
    · cases hm.symm.trans hm'
    · cases hm
    · cases hm
    · exact ⟨ea, hea, hmem⟩

/-- Settles O23, field by field; in the canonical form the write sets the one byte. -/
theorem storeFrame : Obligations.StoreFrame := by
  intro i s t hwf hm h
  obtain ⟨ea, hea, hmem⟩ := exec_store hm h
  obtain ⟨ha, hx⟩ := exec_registers h
  have hp : t.p = s.p := by
    rcases exec_status h with ⟨hm', -⟩ | ⟨hm', -⟩ | ⟨-, hp⟩
    · cases hm.symm.trans hm'
    · simp [hm] at hm'
    · exact hp
  refine ⟨ha (by simp [hm]), hx (.inr hm), exec_y h, hp, exec_keepsEngine (by simp [hm]) h, ⟨ea, hea⟩, fun ea' hea' => ?_⟩
  cases hea.symm.trans hea'
  rw [hmem]
  exact ⟨Memory.read_write_same hwf ea s.a, fun b hb => Memory.read_write_other hwf s.a hb⟩

/-- Settles O39: the first half of a step writes no memory, and an instruction one byte at most, by a STA. -/
theorem onlyStoresWriteMemory : Obligations.OnlyStoresWriteMemory := by
  intro s t b hwf h hchanged
  obtain ⟨-, ⟨-, rfl⟩ | ⟨-, -, rfl⟩ | ⟨_, -, -, -, rfl⟩ | ⟨_, -, -, -, -, -, -, rfl⟩ |
    ⟨d, i, -, hl, -, -, hfit, -, hform, hexec⟩⟩ := stepWith_cases h
  · exact absurd rfl hchanged
  · exact absurd rfl hchanged
  · exact absurd rfl hchanged
  · exact absurd rfl hchanged
  · rcases exec_memory hexec with hmem | ⟨hm, ea, hea, hmem⟩
    · rw [hmem] at hchanged
      exact absurd rfl hchanged
    · rw [hmem] at hchanged ⊢
      have hb : b = ea := by
        by_contra hne
        exact hchanged (Memory.read_write_other hwf s.a hne)
      subst hb
      refine ⟨d, hl, hfit.mnemonic_eq.trans (congrArg some hm), ?_, Memory.read_write_same hwf b s.a⟩
      rw [effectiveAddress_of_assemble (s := { s with pc := s.pc + 1#16 }) hform]
      exact hea

end Sys2Proof.Machine
end

section
/-!
PROOF. PC and the latch after a step (41_engine.md R95, R96, R103; 60_exceptions.md R151, R152).
-/

namespace Sys2Proof.Machine

variable {i : Instr} {s t : State}

/-- Settles O37: the first advance is one byte; an instruction adds the rest of its length, or halts where it is. -/
theorem completedStepAdvancesByLength : Obligations.CompletedStepAdvancesByLength := by
  intro s t h
  obtain ⟨hrun, ⟨-, rfl⟩ | ⟨hpc, -, rfl⟩ | ⟨_, hpc, -, -, rfl⟩ | ⟨_, hpc, -, -, -, -, -, rfl⟩ |
    ⟨d, i, hpc, hl, -, -, hfit, -, -, hexec⟩⟩ := stepWith_cases h
  · exact ⟨nofun, fun _ => .inl rfl⟩
  · exact ⟨nofun, fun _ => .inr (pc_add_one hpc)⟩
  · exact ⟨nofun, fun _ => .inr (pc_add_one hpc)⟩
  · exact ⟨nofun, fun _ => .inr (pc_add_one hpc)⟩
  · rcases exec_halts_or_advances hexec with ⟨hhalt, htpc⟩ | ⟨hphase, -, hadv⟩
    · refine ⟨fun hr => (nomatch hhalt.symm.trans hr), fun _ => .inr ?_⟩
      rw [htpc]
      exact pc_add_one hpc
    · refine ⟨fun _ => ⟨d, hl, ?_⟩, fun hhalt => (nomatch (hhalt.symm.trans hphase).trans hrun)⟩
      have hlen := instr_length_pos i
      change _ = (s.pc + 1#16).toNat + _ at hadv
      rw [pc_add_one hpc] at hadv
      rw [hfit.length_eq]
      omega

/-- No instruction is longer than three bytes (30_encoding.md R51). -/
theorem instr_length_le (i : Instr) : i.length ≤ 3 := by
  have hmode : ∀ mode : Mode, mode.length ≤ 3 := by rintro (_ | _) <;> decide
  exact hmode _

/-- The one value of an instruction's fault, where a three-byte instruction's operand word can be read. -/
theorem exec_err_value (hpc : i.length = 3 → s.pc ≠ 0xFFFF#16) (h : exec i s = .next t) :
    t.err = s.err ∨ (t.phase = .halted ∧ t.err = some (.outOfRange 0x10000)) := by
  rcases exec_end_cases h with ⟨-, rfl⟩ | ⟨w, hw, -, rfl⟩ | ⟨w, -, hlt, rfl⟩
  · exact .inl rfl
  · obtain ⟨-, -, -, herr⟩ := hw.keeps
    exact .inl herr
  · have hlen := instr_length_le i
    have hlast := s.pc.isLt
    have htop : i.length = 3 → s.pc.toNat ≠ 0xFFFF := fun hthree heq => hpc hthree (BitVec.eq_of_toNat_eq heq)
    have hvalue : s.pc.toNat + (i.length - 1) = 0x10000 := by omega
    exact .inr ⟨rfl, by rw [raise_err, hvalue]⟩

/-- Settles O41: the faults of the first half, of which a byte without an arm is none by default, and that of the second advance. -/
theorem errorsAStepCanRaise : Obligations.ErrorsAStepCanRaise := by
  intro s t e hs h ht
  obtain ⟨-, ⟨-, rfl⟩ | ⟨-, -, rfl⟩ | ⟨d, -, hl, hnone, -⟩ | ⟨_, -, -, -, -, -, -, rfl⟩ |
    ⟨d, i, -, -, -, -, hfit, hword, -, hexec⟩⟩ := stepWith_cases h
  · cases ht
    exact ⟨rfl, .inl rfl⟩
  · cases ht
    exact ⟨rfl, .inr rfl⟩
  · exact absurd (dispatchFormat_of_no_mnemonic hnone) (dispatchFormat_isSome (lookup_default_mem hl).1)
  · cases ht
    exact ⟨rfl, .inl rfl⟩
  · rcases exec_err_value (fun hthree => hword (hfit.length_eq.trans hthree)) hexec with hkept | ⟨hhalt, hfault⟩
    · cases (ht.symm.trans hkept).trans hs
    · cases ht.symm.trans hfault
      exact ⟨hhalt, .inl rfl⟩

end Sys2Proof.Machine
end

section
/-!
PROOF. Self-modifying code (20_memory.md R44; decision D24, log 19).
-/

namespace Sys2Proof.Machine

/-- Settles O42: the store's byte is read back at PC, and the step there is the pseudocode's, that of an absent byte, or that of the
instruction which the bytes decode to. -/
theorem storeSeenByNextFetch : Obligations.StoreSeenByNextFetch := by
  intro s t i hwf hm h hrun haddr
  obtain ⟨ea, hea, hmem⟩ := exec_store hm h
  cases hea.symm.trans haddr
  have hbyte : Memory.read t.mem t.pc = s.a := by rw [hmem, Memory.read_write_same hwf]
  refine ⟨hbyte, stepWith_eq_ruleStep hrun, fun hpc hmiss => ?_, fun hpc j rest hdecode => ?_⟩
  · rw [← hbyte] at hmiss ⊢
    exact unrecognizedOpcodeRaises _ t hrun hpc hmiss
  · have hbytes : bytesAtPc t = s.a :: (bytesAtPc t).tail := by rw [bytesAtPc_eq hpc, List.tail_cons, hbyte]
    exact stepRunsDecodedInstruction t j rest hrun hpc (hbytes ▸ hdecode)

end Sys2Proof.Machine
end

section
/-!
PROOF. The canonical form determines the data, and with it the laws of byte and word writes (20_memory.md sections 1 to 4; log 14).
-/

namespace Sys2Proof.Machine

namespace Memory

theorem readAt_head (b : Nat) (w : Byte) (m : Memory) : readAt ((b, w) :: m) b = w := if_pos rfl

theorem readAt_tail {n b : Nat} (h : n ≠ b) (w : Byte) (m : Memory) : readAt ((b, w) :: m) n = readAt m n := if_neg h

/-- A canonical memory does not read as one that is unlisted at its first address. -/
theorem readAt_head_ne {low b : Nat} {w : Byte} {m m' : Memory} (h : wfFrom low ((b, w) :: m) = true)
    (h' : readAt m' b = Config.memoryFill) : readAt ((b, w) :: m) b ≠ readAt m' b := by
  obtain ⟨-, -, hw, -⟩ := wfFrom_cons.mp h
  rwa [readAt_head, h']

/-- Below its first listed address a canonical memory is unlisted. -/
theorem readAt_below_head {low b n : Nat} {w : Byte} {m : Memory} (h : wfFrom low ((b, w) :: m) = true) (hn : n < b) :
    readAt ((b, w) :: m) n = Config.memoryFill := by
  obtain ⟨-, -, -, htail⟩ := wfFrom_cons.mp h
  rw [readAt_tail hn.ne]
  exact readAt_below htail (by omega)

/-- Canonical memories that read the same are the same list. -/
theorem eq_of_readAt_eq {low low' : Nat} {m m' : Memory} (h : wfFrom low m = true) (h' : wfFrom low' m' = true)
    (hread : ∀ n < Config.memSize, readAt m n = readAt m' n) : m = m' := by
  induction m generalizing low low' m' with
  | nil =>
    cases m' with
    | nil => rfl
    | cons c' m' =>
      obtain ⟨-, hb', -, -⟩ := wfFrom_cons.mp h'
      exact absurd (hread _ hb').symm (readAt_head_ne h' rfl)
  | cons c m ih =>
    obtain ⟨b, w⟩ := c
    obtain ⟨-, hb, -, htail⟩ := wfFrom_cons.mp h
    cases m' with
    | nil => exact absurd (hread b hb) (readAt_head_ne h rfl)
    | cons c' m' =>
      obtain ⟨b', w'⟩ := c'
      obtain ⟨-, hb', -, htail'⟩ := wfFrom_cons.mp h'
      rcases Nat.lt_trichotomy b b' with hlt | rfl | hlt
      · exact absurd (hread b hb) (readAt_head_ne h (readAt_below_head h' hlt))
      · have hw : w = w' := by simpa only [readAt_head] using hread b hb
        have hrest : m = m' := by
          refine ih htail htail' fun n hn => ?_
          by_cases hnb : n = b
          · rw [readAt_below htail (by omega), readAt_below htail' (by omega)]
          · simpa only [readAt_tail hnb] using hread n hn
        rw [hw, hrest]
      · exact absurd (hread b' hb').symm (readAt_head_ne h' (readAt_below_head h hlt))

/-- Canonical memories with the same byte at every address are the same list. -/
theorem eq_of_read_eq {m m' : Memory} (h : wf m = true) (h' : wf m' = true) (hread : ∀ a, read m a = read m' a) :
    m = m' := by
  refine eq_of_readAt_eq h h' fun n hn => ?_
  have hn' : (BitVec.ofNat 16 n).toNat = n := Nat.mod_eq_of_lt hn
  simpa only [read, hn'] using hread (BitVec.ofNat 16 n)

theorem write_write_same {m : Memory} (h : wf m = true) (a : Addr) (v w : Byte) :
    write (write m a v) a w = write m a w := by
  have hv := write_wf h a v
  refine eq_of_read_eq (write_wf hv a w) (write_wf h a w) fun b => ?_
  rw [read_write hv, read_write h, read_write h]
  split <;> rfl

theorem write_comm {m : Memory} (h : wf m = true) {a b : Addr} (hab : a ≠ b) (v w : Byte) :
    write (write m a v) b w = write (write m b w) a v := by
  have hv := write_wf h a v
  have hw := write_wf h b w
  refine eq_of_read_eq (write_wf hv b w) (write_wf hw a v) fun c => ?_
  rw [read_write hv, read_write h, read_write hw, read_write h]
  by_cases hcb : c = b
  · rw [if_pos hcb, if_pos hcb, if_neg (by rw [hcb]; exact hab.symm)]
  · rw [if_neg hcb, if_neg hcb]

theorem write_read_same {m : Memory} (h : wf m = true) (a : Addr) : write m a (read m a) = m := by
  refine eq_of_read_eq (write_wf h a _) h fun b => ?_
  rw [read_write h]
  split
  · next hb => rw [hb]
  · rfl

/-- A word write away from the top of the address space: the low byte, then the high byte. -/
theorem writeWord_ok (m : Memory) {a : Addr} (ha : a ≠ 0xFFFF#16) (v : Addr) :
    writeWord m a v = .ok (write (write m a (loByte v)) (a + 1#16) (hiByte v)) := if_neg ha

theorem writeWord_top (m : Memory) (v : Addr) : writeWord m 0xFFFF#16 v = .error (.outOfRange 0x10000) := rfl

end Memory

/-- Settles O33: their readings agree at every address below 0x10000, so the lists agree entry by entry. -/
theorem canonicalMemoryIsUnique : Obligations.CanonicalMemoryIsUnique :=
  fun _ _ => Memory.eq_of_read_eq

/-- Settles O31: each law of writes holds of every read, so it holds of the data. -/
theorem byteWriteLaws : Obligations.ByteWriteLaws :=
  fun _ a b v w h => ⟨Memory.read_write h a b v, Memory.write_write_same h a v w, fun hab => Memory.write_comm h hab v w,
    Memory.write_read_same h a⟩

/-- The two bytes of a word lie at different addresses. -/
theorem addr_ne_succ (a : Addr) : a ≠ a + 1#16 := by bv_omega

/-- Settles O32: at 0xFFFF the range test fails; elsewhere the word is its two bytes, which two byte writes set. -/
theorem wordAccess : Obligations.WordAccess := by
  intro m a v h
  refine ⟨?_, fun ha => ⟨by rw [Memory.readWord_ok m ha, wordOf_eq_ofNat], _, Memory.writeWord_ok m ha v, ?_⟩⟩
  · rintro rfl
    exact ⟨Memory.readWord_top m, Memory.writeWord_top m v⟩
  · have hlo := Memory.write_wf h a (loByte v)
    have hlow : Memory.read (Memory.write (Memory.write m a (loByte v)) (a + 1#16) (hiByte v)) a = loByte v := by
      rw [Memory.read_write_other hlo _ (addr_ne_succ a), Memory.read_write_same h]
    have hhigh : Memory.read (Memory.write (Memory.write m a (loByte v)) (a + 1#16) (hiByte v)) (a + 1#16) = hiByte v :=
      Memory.read_write_same hlo ..
    refine ⟨Memory.write_wf hlo _ _, ?_, ?_, ?_, fun b hb hb' => ?_⟩
    · rw [Memory.readWord_ok _ ha, hlow, hhigh, wordOf_bytes]
    · rw [hlow, loByte_toNat]
    · rw [hhigh, hiByte_toNat]
    · rw [Memory.read_write_other hlo _ hb', Memory.read_write_other h _ hb]

end Sys2Proof.Machine
end

section
/-!
PROOF. The resolver's modes with a pointer, and the complete list of its faults (40_addressing.md R78 to R80, R84).
-/

namespace Sys2Proof.Machine

variable {pc : Addr} {mem : Memory}

/-- An operand word that is read is Indirect's pointer. -/
theorem effectiveAddress_indirect_of_word {ptr : Addr} (x y : Byte) (h : Memory.readWord mem pc = .ok ptr) :
    effectiveAddress .indirect pc x y mem = Memory.readWord mem ptr := by
  simp only [effectiveAddress, assemble, h, Except.map, addressOf]

/-- An operand word that cannot be read is Indirect's fault. -/
theorem effectiveAddress_indirect_top (x y : Byte) (mem : Memory) :
    effectiveAddress .indirect 0xFFFF#16 x y mem = .error (.outOfRange 0x10000) :=
  effectiveAddress_of_assemble_error x y (by rw [assemble, Memory.readWord_top]; rfl)

/-- Settles O28: a pointer in the zero page is never at the top of memory; Indirect's two words are read one after the other. -/
theorem resolverIndirectModes : Obligations.ResolverIndirectModes := by
  intro pc x y mem
  refine ⟨readWord_zeroPage mem _, readWord_zeroPage mem _, ?_, fun hpc => ⟨fun hptr => ?_, fun hptr => ?_⟩⟩
  · rintro rfl
    exact effectiveAddress_indirect_top x y mem
  · rw [effectiveAddress_indirect_of_word x y (Memory.readWord_ok mem hpc), hptr, Memory.readWord_top]
  · rw [effectiveAddress_indirect_of_word x y (Memory.readWord_ok mem hpc), Memory.readWord_ok mem hptr]

/-- The absolute modes fault on their operand word alone. -/
theorem effectiveAddress_absolute_error_iff {mode : Mode} (hmode : mode ∈ [Mode.absolute, .absoluteX, .absoluteY])
    (x y : Byte) (e : RaisedError) :
    effectiveAddress mode pc x y mem = .error e ↔ e = .outOfRange 0x10000 ∧ pc = 0xFFFF#16 := by
  by_cases hpc : pc = 0xFFFF#16
  · rw [hpc, effectiveAddress_absolute_top hmode]
    simp [eq_comm]
  · obtain ⟨habs, habsX, habsY⟩ := effectiveAddress_absolute_of_word x y (Memory.readWord_ok mem hpc)
    simp only [List.mem_cons, List.not_mem_nil, or_false] at hmode
    rcases hmode with rfl | rfl | rfl
    · simp [habs, hpc]
    · simp [habsX, hpc]
    · simp [habsY, hpc]

/-- A word read faults at the top of memory alone. -/
theorem readWord_error_iff (mem : Memory) (a : Addr) (e : RaisedError) :
    Memory.readWord mem a = .error e ↔ e = .outOfRange 0x10000 ∧ a = 0xFFFF#16 := by
  by_cases ha : a = 0xFFFF#16
  · rw [ha, Memory.readWord_top]
    simp [eq_comm]
  · simp [Memory.readWord_ok mem ha, ha]

/-- Indirect faults on its operand word or on its pointer's word. -/
theorem effectiveAddress_indirect_error_iff (x y : Byte) (e : RaisedError) :
    effectiveAddress .indirect pc x y mem = .error e ↔ e = .outOfRange 0x10000 ∧
      (pc = 0xFFFF#16 ∨ pc ≠ 0xFFFF#16 ∧ wordOf (Memory.read mem (pc + 1#16)) (Memory.read mem pc) = 0xFFFF#16) := by
  by_cases hpc : pc = 0xFFFF#16
  · rw [hpc, effectiveAddress_indirect_top]
    simp [eq_comm]
  · rw [effectiveAddress_indirect_of_word x y (Memory.readWord_ok mem hpc), readWord_error_iff]
    simp [hpc]

/-- Settles O30, mode by mode. -/
theorem resolverFaultList : Obligations.ResolverFaultList := by
  intro mode pc x y mem e
  obtain ⟨himm, hzp, hzpx, hzpy⟩ := resolverZeroPageModes pc x y mem
  obtain ⟨hindx, hindy, -, -⟩ := resolverIndirectModes pc x y mem
  obtain ⟨hacc, hnone, -, -⟩ := resolverRefusesInapplicableModes pc x y mem
  cases mode with
  | immediate => simp [himm]
  | zeroPage => simp [hzp]
  | zeroPageX => simp [hzpx]
  | zeroPageY => simp [hzpy]
  | absolute => simp [effectiveAddress_absolute_error_iff]
  | absoluteX => simp [effectiveAddress_absolute_error_iff]
  | absoluteY => simp [effectiveAddress_absolute_error_iff]
  | indirect => simp [effectiveAddress_indirect_error_iff, and_or_left]
  | indirectX => simp [hindx]
  | indirectY => simp [hindy]
  | accumulator => simp [hacc, eq_comm]
  | noneAddressing => simp [hnone, eq_comm]

end Sys2Proof.Machine
end

section
/-!
PROOF. The loads and the stores, mode by mode: the encoding, and the meaning from the operand's value or address (44_lda.md R115,
45_ldx.md R125, 46_sta.md R132).
-/

namespace Sys2Proof.Machine

variable {i : Instr} {s : State}

/-- LDA in any mode, from the value of its operand. -/
theorem loadsA_of_operandValue {v : Byte} (hm : i.mnemonic = .lda) (hv : s.operandValue i.form = .ok v) :
    LoadsA i i.length v s := by
  have hexec : exec i s = secondAdvance i.length ((s.setA v).updateFlags v) := by
    rw [exec_lda hm, loadRegister, hv]
    rfl
  exact ⟨fun hle => hexec.trans (secondAdvance_ok hle), fun hlt => hexec.trans (secondAdvance_error hlt)⟩

/-- LDX in any mode, from the value of its operand. -/
theorem loadsX_of_operandValue {v : Byte} (hm : i.mnemonic = .ldx) (hv : s.operandValue i.form = .ok v) :
    LoadsX i i.length v s := by
  have hexec : exec i s = secondAdvance i.length ((s.setX v).updateFlags v) := by
    rw [exec_ldx hm, loadRegister, hv]
    rfl
  exact ⟨fun hle => hexec.trans (secondAdvance_ok hle), fun hlt => hexec.trans (secondAdvance_error hlt)⟩

/-- STA in any mode, from the address of its operand. -/
theorem storesAAt_of_addressOf {ea : Addr} (hm : i.mnemonic = .sta) (hea : s.addressOf i.form = .ok ea) :
    StoresAAt i i.length ea s := by
  have hexec : exec i s = secondAdvance i.length (s.store ea s.a) := by
    rw [exec_sta hm, storeAccumulator, hea]
    rfl
  exact ⟨fun hle => hexec.trans (secondAdvance_ok hle), fun hlt => hexec.trans (secondAdvance_error hlt)⟩

/-- The address of IndirectX is the word at the pointer indexed by X (40_addressing.md R79). -/
theorem addressOf_indirectX (d8 : Byte) (s : State) :
    s.addressOf (.indirectX d8) = .ok (pointerWord s.mem (d8 + s.x)) := readWord_zeroPage s.mem _

/-- The address of IndirectY is the word at the pointer indexed by Y (40_addressing.md R80). -/
theorem addressOf_indirectY (d8 : Byte) (s : State) :
    s.addressOf (.indirectY d8) = .ok (pointerWord s.mem (d8 + s.y)) := readWord_zeroPage s.mem _

/-- The value of an operand that is not immediate is the byte at its address. -/
theorem operandValue_of_addressOf {form : OperandForm} {ea : Addr} (himm : form.mode ≠ .immediate)
    (hea : s.addressOf form = .ok ea) : s.operandValue form = .ok (Memory.read s.mem ea) := by
  unfold State.operandValue
  split
  · exact absurd rfl himm
  · rw [hea]

/-- LDA from the address of its operand. -/
theorem loadsA_of_addressOf {ea : Addr} (hm : i.mnemonic = .lda) (himm : i.form.mode ≠ .immediate)
    (hea : s.addressOf i.form = .ok ea) : LoadsA i i.length (Memory.read s.mem ea) s :=
  loadsA_of_operandValue hm (operandValue_of_addressOf himm hea)

/-- LDX from the address of its operand. -/
theorem loadsX_of_addressOf {ea : Addr} (hm : i.mnemonic = .ldx) (himm : i.form.mode ≠ .immediate)
    (hea : s.addressOf i.form = .ok ea) : LoadsX i i.length (Memory.read s.mem ea) s :=
  loadsX_of_operandValue hm (operandValue_of_addressOf himm hea)

/-- The encoding of an operand word, low byte first (30_encoding.md R51). -/
theorem operandBytes_wordOf (op hi lo : Byte) : [op, loByte (wordOf hi lo), hiByte (wordOf hi lo)] = [op, lo, hi] := by
  rw [loByte_wordOf, hiByte_wordOf]

/-- Settles O14: the value of each operand is the immediate byte or the byte at its zero-page address. -/
theorem ldaImmediateAndZeroPage : Obligations.LdaImmediateAndZeroPage :=
  fun _ _ => ⟨rfl, loadsA_of_operandValue rfl rfl, rfl, loadsA_of_addressOf rfl nofun rfl, rfl,
    loadsA_of_addressOf rfl nofun rfl⟩

/-- Settles O15: the address of each operand is the word, with the index added. -/
theorem ldaAbsoluteModes : Obligations.LdaAbsoluteModes :=
  fun lo hi _ => ⟨operandBytes_wordOf _ hi lo, loadsA_of_addressOf rfl nofun rfl, operandBytes_wordOf _ hi lo,
    loadsA_of_addressOf rfl nofun rfl, operandBytes_wordOf _ hi lo, loadsA_of_addressOf rfl nofun rfl⟩

/-- Settles O16: the address of each operand is the word at its indexed pointer. -/
theorem ldaIndirectModes : Obligations.LdaIndirectModes :=
  fun d8 s => ⟨rfl, loadsA_of_addressOf rfl nofun (addressOf_indirectX d8 s), rfl,
    loadsA_of_addressOf rfl nofun (addressOf_indirectY d8 s)⟩

/-- Settles O17: as for LDA; the address is taken from the state before X is written. -/
theorem ldxImmediateAndZeroPage : Obligations.LdxImmediateAndZeroPage :=
  fun _ _ => ⟨rfl, loadsX_of_operandValue rfl rfl, rfl, loadsX_of_addressOf rfl nofun rfl, rfl,
    loadsX_of_addressOf rfl nofun rfl⟩

/-- Settles O18: as for LDA, into X. -/
theorem ldxAbsoluteModes : Obligations.LdxAbsoluteModes :=
  fun lo hi _ => ⟨operandBytes_wordOf _ hi lo, loadsX_of_addressOf rfl nofun rfl, operandBytes_wordOf _ hi lo,
    loadsX_of_addressOf rfl nofun rfl⟩

/-- Settles O19: the address of each operand lies in the zero page. -/
theorem staZeroPageModes : Obligations.StaZeroPageModes :=
  fun _ _ => ⟨rfl, storesAAt_of_addressOf rfl rfl, rfl, storesAAt_of_addressOf rfl rfl⟩

/-- Settles O20: the address of each operand is the word, with the index added. -/
theorem staAbsoluteModes : Obligations.StaAbsoluteModes :=
  fun lo hi _ => ⟨operandBytes_wordOf _ hi lo, storesAAt_of_addressOf rfl rfl, operandBytes_wordOf _ hi lo,
    storesAAt_of_addressOf rfl rfl, operandBytes_wordOf _ hi lo, storesAAt_of_addressOf rfl rfl⟩

/-- Settles O21: the address of each operand is the word at its indexed pointer, read before the store. -/
theorem staIndirectModes : Obligations.StaIndirectModes :=
  fun d8 s => ⟨rfl, storesAAt_of_addressOf rfl (addressOf_indirectX d8 s), rfl,
    storesAAt_of_addressOf rfl (addressOf_indirectY d8 s)⟩

end Sys2Proof.Machine
end

section
/-!
PROOF. The keys of the catalog, and which entries make a value of `CATALOG_EXTRA` (30_encoding.md R52, R55, R57).
-/

namespace Sys2Proof

/-- The check of a catalog: unique keys, and lengths that fit. -/
theorem catalogWf_iff (rows : List Descriptor) :
    catalogWf rows = true ↔ (rows.map Descriptor.code).Nodup ∧ ∀ d ∈ rows, d.length = d.mode.length := by
  simp [catalogWf, uniqueCodes_iff_nodup, Descriptor.wf]

/-- The keys of the rows with entries after them. -/
theorem codes_append_entries (entries : List ExtraEntry) :
    (catalog ++ entries.map ExtraEntry.descriptor).map Descriptor.code = catalogCodes ++ entries.map ExtraEntry.code := by
  rw [List.map_append, List.map_map]
  rfl

/-- Every row of the catalog has the length of its mode (30_encoding.md R52). -/
theorem catalog_length : ∀ d ∈ catalog, d.length = d.mode.length := by decide

/-- The check of entries over the catalog, in the spec's three conditions. -/
theorem extraWf_iff (entries : List ExtraEntry) :
    extraWf catalog entries = true ↔ (catalogCodes ++ entries.map ExtraEntry.code).Nodup ∧
      0xFF#8 ∉ entries.map ExtraEntry.code ∧ ∀ e ∈ entries, e.length = e.mode.length := by
  have hlength : (∀ d ∈ catalog ++ entries.map ExtraEntry.descriptor, d.length = d.mode.length) ↔
      ∀ e ∈ entries, e.length = e.mode.length := by
    rw [List.forall_mem_append, List.forall_mem_map]
    exact ⟨And.right, fun h => ⟨catalog_length, h⟩⟩
  have hFF : (entries.all fun e => e.code != 0xFF#8) = true ↔ 0xFF#8 ∉ entries.map ExtraEntry.code := by simp
  rw [extraWf, Bool.and_eq_true, catalogWf_iff, codes_append_entries, hlength, hFF, and_assoc,
    and_comm (a := ∀ e ∈ entries, _)]

/-- Construction accepts exactly the entries that pass the check. -/
theorem ofEntries_eq_some_iff (entries : List ExtraEntry) :
    (∃ extra, CatalogExtra.ofEntries entries = some extra ∧ extra.entries = entries) ↔
      extraWf catalog entries = true := by
  constructor
  · rintro ⟨extra, -, rfl⟩
    exact extra.wf
  · intro hwf
    exact ⟨⟨entries, hwf⟩, dif_pos hwf, rfl⟩

/-- Construction refuses entries that fail the check. -/
theorem ofEntries_eq_none {entries : List ExtraEntry} (h : ¬ extraWf catalog entries = true) :
    CatalogExtra.ofEntries entries = none := dif_neg h

/-- The bytes that are found are the keys. -/
theorem lookup_isSome_iff (extra : CatalogExtra) (op : Byte) :
    (lookup extra op).isSome ↔ op ∈ extra.rows.map Descriptor.code := by
  rw [lookup, List.find?_isSome, List.mem_map]
  simp only [beq_iff_eq]

/-- 0xFF is a key of no catalog (00_scope.md R4). -/
theorem lookup_0xFF (extra : CatalogExtra) : lookup extra 0xFF#8 = none := by
  obtain ⟨-, hFF, -⟩ := (extraWf_iff extra.entries).mp extra.wf
  have hrows : 0xFF#8 ∉ catalogCodes := by decide
  rw [← Option.not_isSome_iff_eq_none, lookup_isSome_iff, CatalogExtra.rows, codes_append_entries, List.mem_append]
  exact not_or_intro hrows hFF

/-- Settles O3: the keys of the 23 rows in the rising order of the statement, and the check of entries. -/
theorem legalOpcodeBytes : Obligations.LegalOpcodeBytes := by
  refine ⟨fun op => ?_, lookup_0xFF, fun entries => (ofEntries_eq_some_iff entries).trans (extraWf_iff entries)⟩
  rw [lookup_isSome_iff]
  have hkeys : (CatalogExtra.default.rows.map Descriptor.code).Perm [0x00#8, 0x81#8, 0x85#8, 0x8D#8, 0x91#8, 0x95#8, 0x99#8,
      0x9D#8, 0xA1#8, 0xA2#8, 0xA5#8, 0xA6#8, 0xA9#8, 0xAA#8, 0xAD#8, 0xAE#8, 0xB1#8, 0xB5#8, 0xB6#8, 0xB9#8, 0xBD#8,
      0xBE#8, 0xE8#8] := by decide
  exact hkeys.mem_iff

/-- Settles O50: the checks ask for unique keys, so what passes them has none twice; the STA rows are computed. -/
theorem catalogKeysAreUnique : Obligations.CatalogKeysAreUnique := by
  refine ⟨fun rows hdup => ?_, fun entries hdup => ?_, fun extra => ⟨rows_codes_nodup extra, fun d => lookup_of_mem⟩,
    by decide, by decide⟩
  · rw [← Bool.not_eq_true, catalogWf_iff]
    exact fun h => hdup h.1
  · exact ofEntries_eq_none fun hwf => hdup ((extraWf_iff entries).mp hwf).1

end Sys2Proof
end

section
/-!
PROOF. The host's commands by phase, and what each leaves (70_reset_and_hazards.md R180 to R183, 10_state.md R28).
-/

namespace Sys2Proof.Machine

variable {s t : State}

/-- While Running a command is refused. -/
theorem unlessRunning_of_running {name : CommandName} {act : State → State} (h : s.phase = .running) :
    unlessRunning name act s = .refused (.command name .running) := by
  rw [unlessRunning, if_pos h, h]

/-- Settles O48: each command tests the phase first. -/
theorem commandsByPhase : Obligations.CommandsByPhase := by
  refine ⟨fun s hrun => ?_, fun extra s hphase => if_neg hphase⟩
  have hrefused {name : CommandName} {act : State → State} := unlessRunning_of_running (name := name) (act := act) hrun
  have hrefusedRun (extra program) : hostRunWith extra program s = .refused (.command .run .running) := by
    rw [hostRunWith, if_pos hrun, hrun]
  exact ⟨fun _ => hrefused, hrefused, hrefusedRun, fun _ _ => hrefused, fun _ => hrefused, fun _ => hrefused,
    fun _ => hrefused, fun _ => hrefused, fun _ => hrefused⟩

/-- Settles O49: each write is one update of the state. -/
theorem hostWritesChangeOneThing : Obligations.HostWritesChangeOneThing :=
  fun _ h => ⟨fun _ _ => unlessRunning_of_ne h, fun _ => unlessRunning_of_ne h, fun _ => unlessRunning_of_ne h,
    fun _ => unlessRunning_of_ne h, fun _ => unlessRunning_of_ne h, fun _ => unlessRunning_of_ne h⟩

/-- Settles O43: the effect is `resetEngine_eq`, and on a fresh engine every power-on value is overwritten. -/
theorem resetCommandState : Obligations.ResetCommandState := by
  refine ⟨fun s h => ?_, ?_⟩
  · rw [← resetEngine_eq]
    exact unlessRunning_of_ne h
  · exact (unlessRunning_of_ne (by decide)).trans (congrArg _ (resetEngine_eq State.constructed))

/-- A program that does not fit. -/
theorem loadProgram_of_too_long {program : List Byte} (h : 32768 < program.length) (s : State) :
    loadProgram program s = raise (.outOfRange program.length) s := if_pos h

/-- What `load` leaves of a program that fits. -/
theorem loadProgram_of_fits {program : List Byte} (h : program.length ≤ 32768) (s : State) :
    loadProgram program s =
      { s with
        mem := Memory.write (Memory.write (Memory.writeBytes s.mem 0x8000 program) 0xFFFC#16 0x00#8) 0xFFFD#16 0x80#8
        pc := 0x8000#16
        err := none
        phase := .loaded } := by
  rcases loadProgram_cases program s with ⟨hlt, -⟩ | ⟨-, hload⟩
  · exact absurd h (Nat.not_le_of_lt hlt)
  · exact hload

/-- The copy of a program that fits stays inside the address space, so it keeps the canonical form. -/
theorem writeBytes_origin_wf {m : Memory} (h : Memory.wf m = true) {program : List Byte} (hlen : program.length ≤ 32768) :
    Memory.wf (Memory.writeBytes m 0x8000 program) = true :=
  Memory.writeBytes_wf h program 0x8000 (Nat.add_le_add_left hlen _)

/-- A copy of a program that fits, byte by byte. -/
theorem read_writeBytes_origin {m : Memory} (h : Memory.wf m = true) {program : List Byte} (hlen : program.length ≤ 32768)
    (b : Addr) :
    Memory.read (Memory.writeBytes m 0x8000 program) b =
      if 0x8000 ≤ b.toNat then (program[b.toNat - 0x8000]?).getD (Memory.read m b) else Memory.read m b := by
  rw [Memory.read, Memory.readAt_writeBytes h program 0x8000 b.toNat (Nat.add_le_add_left hlen _)]
  by_cases hlow : 0x8000 ≤ b.toNat
  · rw [if_pos hlow]
    by_cases hin : b.toNat - 0x8000 < program.length
    · rw [dif_pos (by omega), List.getElem?_eq_getElem hin, Option.getD_some]
    · rw [dif_neg (by omega), List.getElem?_eq_none (by omega), Option.getD_none]
      rfl
  · rw [if_neg hlow, dif_neg (by omega)]
    rfl

/-- Settles O45: the copy keeps the canonical form, and the two bytes of the vector are written over it. -/
theorem loadPlacesProgram : Obligations.LoadPlacesProgram := by
  intro program s hwf hphase
  have hload : hostLoad program s = .next (loadProgram program s) := unlessRunning_of_ne hphase
  refine ⟨fun hlen => hload.trans (congrArg _ (loadProgram_of_too_long hlen s)),
    fun hlen => ⟨_, hload.trans (congrArg _ (loadProgram_of_fits hlen s)), ?_⟩⟩
  have hcopy := writeBytes_origin_wf hwf hlen
  have hlow := Memory.write_wf hcopy 0xFFFC#16 0x00#8
  refine ⟨Memory.write_wf hlow _ _, ?_, Memory.read_write_same hlow _ _, fun b hbl hbh => ?_⟩
  · rw [Memory.read_write_other hlow _ (by decide), Memory.read_write_same hcopy]
  · rw [Memory.read_write_other hlow _ hbh, Memory.read_write_other hcopy _ hbl, read_writeBytes_origin hwf hlen]

/-- `run` of a program that fits is load, reset, execute (41_engine.md R98). -/
theorem hostRunWith_of_fits (extra : CatalogExtra) {program : List Byte} (hlen : program.length ≤ 32768)
    (hphase : s.phase ≠ .running) :
    hostRunWith extra program s = hostExecuteWith extra (resetEngine (loadProgram program s)) := by
  rw [hostRunWith, if_neg hphase]
  refine if_neg ?_
  rw [loadProgram_of_fits hlen]
  nofun

/-- Settles O47: what `load` and `reset` leave is made of memory and the program. -/
theorem runForgetsRegisters : Obligations.RunForgetsRegisters := by
  intro extra program s s' hlen hphase hphase' hmem
  rw [hostRunWith_of_fits extra hlen hphase, hostRunWith_of_fits extra hlen hphase', resetEngine_eq, resetEngine_eq,
    loadProgram_of_fits hlen, loadProgram_of_fits hlen, hmem]

end Sys2Proof.Machine
end

section
/-!
PROOF. The host's commands keep the invariant (70_reset_and_hazards.md R180, R181; 10_state.md R28).
-/

namespace Sys2Proof.Machine

variable {extra : CatalogExtra} {s t : State}

/-- `load` keeps the invariant: both the copy and the vector stay inside the address space. -/
theorem loadProgram_inv (program : List Byte) (hs : Inv s) : Inv (loadProgram program s) := by
  rcases loadProgram_cases program s with ⟨-, hload⟩ | ⟨hlen, hload⟩ <;> rw [hload]
  · exact inv_raise hs.memory _
  · have hcopy := writeBytes_origin_wf hs.memory hlen
    exact ⟨Memory.write_wf (Memory.write_wf hcopy _ _) _ _, fun herr => absurd rfl herr⟩

/-- `reset` keeps the memory and clears the latch. -/
theorem resetEngine_inv (hs : Inv s) : Inv (resetEngine s) := by
  rw [resetEngine_eq]
  exact ⟨hs.memory, fun herr => absurd rfl herr⟩

/-- A run under any budget keeps the invariant. -/
theorem stepsWhileRunning_inv {n : Nat} (hs : Inv s) (h : stepsWhileRunning extra n s = .next t) : Inv t := by
  induction n generalizing s with
  | zero =>
    cases h
    exact hs
  | succ n ih =>
    by_cases hrun : s.phase = .running
    · obtain ⟨s', hs'⟩ := stepWith_answers (extra := extra) hrun
      rw [stepsWhileRunning_step hrun hs'] at h
      exact ih (stepWith_inv hs' hs) h
    · rw [stepsWhileRunning_idle hrun] at h
      cases h
      exact hs

/-- `execute` keeps the invariant: no error is latched in phase Reset, where it starts. -/
theorem hostExecuteWith_inv (hs : Inv s) (h : hostExecuteWith extra s = .next t) : Inv t := by
  rw [hostExecuteWith, hostExecuteWithin] at h
  split at h
  · next hphase =>
    have hlatch : s.err = none := by
      by_contra herr
      cases hphase.symm.trans (hs.latch herr)
    exact stepsWhileRunning_inv (s := { s with phase := .running }) ⟨hs.memory, fun herr => absurd hlatch herr⟩ h
  · cases h

/-- `run` keeps the invariant. -/
theorem hostRunWith_inv {program : List Byte} (hs : Inv s) (h : hostRunWith extra program s = .next t) : Inv t := by
  rw [hostRunWith] at h
  split at h
  · cases h
  · have hloaded := loadProgram_inv program hs
    dsimp only at h
    split at h
    · cases h
      exact hloaded
    · exact hostExecuteWith_inv (resetEngine_inv hloaded) h

/-- A command whose effect keeps the invariant keeps it. -/
theorem unlessRunning_inv {name : CommandName} {act : State → State} (hact : Inv (act s))
    (h : unlessRunning name act s = .next t) : Inv t := by
  obtain ⟨-, rfl⟩ := unlessRunning_next h
  exact hact

/-- Settles O36, command by command. -/
theorem commandsKeepInvariant : Obligations.CommandsKeepInvariant := by
  intro s t hs
  exact ⟨fun program => unlessRunning_inv (loadProgram_inv program hs),
    unlessRunning_inv (resetEngine_inv hs),
    fun extra => hostExecuteWith_inv hs,
    fun extra program => hostRunWith_inv hs,
    fun a v => unlessRunning_inv ⟨Memory.write_wf hs.memory a v, hs.latch⟩,
    fun v => unlessRunning_inv ⟨hs.memory, hs.latch⟩,
    fun v => unlessRunning_inv ⟨hs.memory, hs.latch⟩,
    fun v => unlessRunning_inv ⟨hs.memory, hs.latch⟩,
    fun v => unlessRunning_inv ⟨hs.memory, hs.latch⟩,
    fun v => unlessRunning_inv ⟨hs.memory, hs.latch⟩⟩

end Sys2Proof.Machine
end
